-- ==== Sys2Proof/Word.lean ====
section
/-!
DEFINITION. The words of the codec and of the disk array around it (spec/00_scope.md rules R4, R6, R7;
spec/20_memory.md rule R23).

A bit sequence is numbered from element 0, and wire `i` of a port carries element `i` of the sequence the port stands
for (rule R7).  A port word is therefore a bit vector whose bit `i` (`getLsbD i`) is element `i`; it is never read as a
numeral, except for the two outputs that rule R7 names (`dec_status` and `dec_pos`), where wire `k` has weight `2^k`.
-/

namespace Sys2Proof

/-- A bit sequence of any length (rule R6): the first list element is element 0. -/
abbrev BitSeq := List Bool

/-- The payload word of `enc_data` and `dec_data` (rule R4, `M = 8`): bit `i` is data bit `i`, which is NOT the bit of
weight `2^i` of the byte (rule R25). -/
abbrev Data := BitVec 8

/-- A 13-bit codeword (rule R4, `N = 13`): bit `j` is the bit at position `j`. -/
abbrev Codeword := BitVec 13

/-- A byte as a number 0 to 255: bit `k` has weight `2^k` (rule R23). -/
abbrev Byte := BitVec 8

end Sys2Proof
end

