-- ==== Sys2Proof/Config.lean ====
section
/-!
DEFINITION. What is fixed when the blocks are built, and the parameters the spec leaves open
(spec/00_scope.md rules R3, R4 and the table after R5; spec/92_eei_decisions.md D1, D7, D16, D17).
None of it is state (spec/10_state.md rule R19).
-/

namespace Sys2Proof

/-- The two values of `OOR_POLICY` (spec/41_decoder.md rule R72): what `DEC` does when the overall parity is odd and
the syndrome names no position of the word. -/
inductive OorPolicy where
  /-- Report OneError at the position `syn`, flip nothing, extract the payload from the unchanged word. -/
  | reportNoFlip
  /-- Give the evaluation no result. -/
  | fault
deriving DecidableEq, Repr

/-- The values of `DUP_NAME_POLICY` (spec/42_array_environment.md rule R88): what a second `write_file` under a name
already in the directory does. -/
inductive DupNamePolicy where
  /-- Duplicates are stored and a lookup returns the earliest record. -/
  | firstMatch
  /-- A duplicate name is rejected. -/
  | rejectDuplicates
  /-- Duplicates are stored and a lookup returns the latest record. -/
  | lastShadows
deriving DecidableEq, Repr

/-- `OOR_POLICY` at the value the spec gives as its default and writes out in rule R71 (log entry 1). -/
def Config.oorPolicy : OorPolicy := .reportNoFlip

/-- `DUP_NAME_POLICY` at the value the spec gives as its default (rule R88, log entry 2). -/
def Config.dupNamePolicy : DupNamePolicy := .firstMatch

/-- The construction argument `disk_size` of the array that exists when the machine starts.  The spec leaves it open
(rule R80, D16), so it has no body here and nothing can be proved of its value (log entry 3). -/
opaque Config.diskSize : Nat

end Sys2Proof
end

