-- ==== Sys2Proof/Syntax.lean ====
section
/-!
DEFINITION. The operations of the codec and everything the environment can ask for
(spec/30_encoding.md rules R34, R35, R48, R50, R52, R53; spec/42_array_environment.md rules R82, R96;
spec/60_exceptions.md rules R98, R105).
-/

namespace Sys2Proof

/-- One constructor for each row of spec/opcode_table.json.  Neither has an opcode: the word driven on the block's one
input port is the whole operation (rule R50). -/
inductive Instr where
  /-- `ENC`: `data` is the word on `enc_data` (spec/40_encoder.md rule R54). -/
  | enc (data : Data)
  /-- `DEC`: `cw` is the word on `dec_cw` (spec/41_decoder.md rule R71). -/
  | dec (cw : Codeword)
deriving DecidableEq, Repr

/-- The two input ports (spec/10_state.md rules R14, R15).  Which one is driven decides which operation runs
(rule R50). -/
inductive Port where
  | encData
  | decCw
deriving DecidableEq, Repr

/-- A bit sequence offered to an input port: the raw form of an operation, before its width is checked. -/
structure PortWord where
  port : Port
  bits : BitSeq
deriving DecidableEq, Repr

/-- Why the decoder gives a port word no operation. -/
inductive DecodeReject where
  /-- The port has another width than the word: the case has no spelling in the hardware (spec/20_memory.md R27). -/
  | wrongWidth (port : Port) (width : Nat)
deriving DecidableEq, Repr

/-- The class of a codeword position (rule R35). -/
inductive PosClass where
  | overall
  | hamming
  | payload
deriving DecidableEq, Repr

/-- The three result classes of `DEC` (rule R48). -/
inductive ResultClass where
  | noError
  | oneError
  | doubleError
deriving DecidableEq, Repr

/-- The decoder's tagged result for payload width `M` (rules R34, R98).  A position is a natural number; it becomes
`R` bits only at the port (rule R49). -/
inductive DecResult (M : Nat) where
  | noError (payload : BitVec M)
  | oneError (payload : BitVec M) (position : Nat)
  | doubleError
deriving DecidableEq, Repr

/-- The four output ports of a decoder of payload width `M`, parity count `R` and word width `N` (rule R47). -/
structure DecOut (M R N : Nat) where
  /-- `dec_status` (rule R48). -/
  status : BitVec 2
  /-- `dec_pos` (rule R49). -/
  pos : BitVec R
  /-- `dec_data`. -/
  data : BitVec M
  /-- `dec_cw_fixed`. -/
  cwFixed : BitVec N
deriving DecidableEq, Repr

/-- The only file kind: an opaque byte blob, the source's "Text" (rule R82). -/
inductive FileKind where
  | text
deriving DecidableEq, Repr

/-- A directory entry (rule R82).  The byte range is half open, `[startPos, endPos)`. -/
structure FileRecord where
  name : String
  startPos : Nat
  endPos : Nat
  size : Nat
  kind : FileKind
deriving DecidableEq, Repr

/-- One request of the environment: what a step of the machine reads (spec/10_state.md rule R11; log entry 5).
The array's operations are those of rules R80 and R96, the others those of rules R50, R52 and R53. -/
inductive Request where
  /-- Drive an input port of a block: `ENC` or `DEC`. -/
  | drive (w : PortWord)
  /-- `FLIP`: complement one position of a codeword outside the blocks (rule R52). -/
  | flip (w : Codeword) (p : Nat)
  /-- `ENCB` (rule R53). -/
  | encb (b : Byte)
  /-- `DECB` (rule R53). -/
  | decb (w : Codeword)
  /-- `construction(disk_size)` (rule R80). -/
  | construct (diskSize : Nat)
  /-- `write_file(data, kind, name)` (rule R85). -/
  | writeFile (data : List Byte) (kind : FileKind) (name : String)
  /-- `read_file(name)` (rule R89). -/
  | readFile (name : String)
  /-- `corrupt_disk(disk_number)`, its argument counted from 1 (rule R93). -/
  | corruptDisk (diskNumber : Nat)
deriving DecidableEq, Repr

/-- What a request that returns a value returns (rules R52, R53, R96, R105).  `ENC` and `DEC` return nothing here:
their results are on the output ports. -/
inductive Reply where
  /-- The result of `FLIP`. -/
  | flipped (w : Codeword)
  /-- The byte of a `DECB` whose class is NoError or OneError. -/
  | byte (b : Byte)
  /-- `DECB` on a DoubleError: there is no payload. -/
  | noByte
  /-- The array has been constructed. -/
  | constructed
  /-- `write_file`: `Success`. -/
  | written
  /-- `write_file`: `NotEnoughSpace`. -/
  | notEnoughSpace
  /-- `write_file` under `rejectDuplicates`: the name is taken (log entry 2). -/
  | duplicateName
  /-- `read_file`: `NotFound`. -/
  | notFound
  /-- `read_file`: `DisksCorrupted`. -/
  | disksCorrupted
  /-- `read_file`: `Success(kind, bytes)`. -/
  | contents (kind : FileKind) (bytes : List Byte)
  /-- `corrupt_disk`: whether the disk number was in range. -/
  | inRange (ok : Bool)
deriving DecidableEq, Repr

end Sys2Proof
end

