-- ==== Sys2Proof/WellFormed.lean ====
section
/-!
DEFINITION. What may be put to the machine (spec/20_memory.md rule R27; spec/30_encoding.md rule R51;
spec/00_scope.md rule R8, the row of `flip`).
-/

namespace Sys2Proof

/-- The number of wires of an input port in this build (spec/10_state.md rules R14, R15). -/
def Port.width : Port → Nat
  | .encData => 8
  | .decCw => 13

/-- A port word has exactly as many bits as its port has wires (rule R27). -/
def PortWord.wellFormed (w : PortWord) : Bool := w.bits.length == w.port.width

/-- Every 8-bit word is a legal payload and every 13-bit word can be driven on `dec_cw`: no operation with a word of
its port's width is ill formed (rule R51). -/
def Instr.WellFormed : Instr → Prop
  | .enc _ => True
  | .dec _ => True

/-- A request is well formed when its port word is, and when `FLIP` names a position of the word (rule R8).  The
array's operations answer every argument. -/
def Request.wellFormed : Request → Bool
  | .drive w => w.wellFormed
  | .flip _ p => decide (p < 13)
  | .encb _ => true
  | .decb _ => true
  | .construct _ => true
  | .writeFile _ _ _ => true
  | .readFile _ => true
  | .corruptDisk _ => true

end Sys2Proof
end

