-- ==== Sys2Proof/Decode.lean ====
section
/-!
DEFINITION. From the bits on a port to an operation and back (spec/30_encoding.md rules R46, R47, R50;
spec/20_memory.md rule R27; spec/opcode_table.json).  There is no opcode: the port selects the operation, and the only
thing that can be wrong with a word is its width.
-/

namespace Sys2Proof

/-- The `n`-bit word whose element `i` is `f i`. -/
def wordOf : (n : Nat) → (Nat → Bool) → BitVec n
  | 0, _ => 0#0
  | n + 1, f => BitVec.cons (f n) (wordOf n f)

/-- The word of a bit sequence, element `i` on wire `i` (spec/00_scope.md rule R7). -/
def wordOfBits (n : Nat) (bits : BitSeq) : BitVec n := wordOf n (fun i => bits.getD i false)

/-- The bit sequence of a word, element 0 first. -/
def bitsOfWord {n : Nat} (w : BitVec n) : BitSeq := (List.range n).map (fun i => w.getLsbD i)

/-- The decoder: an 8-bit word on `enc_data` is `ENC`, a 13-bit word on `dec_cw` is `DEC`, and a word of any other
width is rejected by name (rules R27, R50). -/
def decode (w : PortWord) : Except DecodeReject Instr :=
  match w.port with
  | .encData =>
    if w.bits.length = 8 then .ok (.enc (wordOfBits 8 w.bits))
    else .error (.wrongWidth .encData w.bits.length)
  | .decCw =>
    if w.bits.length = 13 then .ok (.dec (wordOfBits 13 w.bits))
    else .error (.wrongWidth .decCw w.bits.length)

/-- The encoder: the word each operation puts on its input port (rules R46, R47). -/
def encode : Instr → PortWord
  | .enc d => { port := .encData, bits := bitsOfWord d }
  | .dec w => { port := .decCw, bits := bitsOfWord w }

/-- The element list of a number: element `i` is the bit of weight `2^i`. -/
def bitsOfNat (n w : Nat) : BitSeq := (List.range n).map (fun i => w.testBit i)

/-- A word as spec/opcode_table.json numbers it, as a port word (log entry 4).  Up to 8 bits stand for `enc_data`, more
for `dec_cw`; bit `i` of the number is wire `i`.  A number with a one beyond the port's last wire keeps all its bits,
so that the decoder rejects its width. -/
def tablePortWord (nbits w : Nat) : PortWord :=
  if nbits ≤ 8 then
    { port := .encData, bits := if w < 2 ^ 8 then bitsOfNat 8 w else bitsOfNat (w.log2 + 1) w }
  else
    { port := .decCw, bits := if w < 2 ^ 13 then bitsOfNat 13 w else bitsOfNat (w.log2 + 1) w }

/-- The operation the decoder reads from a word of the opcode table. -/
def decodeTableWord (nbits w : Nat) : Option Instr :=
  match decode (tablePortWord nbits w) with
  | .ok i => some i
  | .error _ => none

end Sys2Proof
end

