-- ==== Sys2Proof/Machine/State.lean ====
section
/-!
DEFINITION. The machine's state as plain data.

The codec itself stores nothing (spec/10_state.md rules R10 to R13, R18).  What a model holds in place of block state is
the word on each of its wires (rules R14, R15): the two inputs, which keep what the environment last drove, and the
outputs, which follow them.  All stored state is the environment's (rule R17): the 13 virtual disks, the two capacity
counters and the directory (spec/42_array_environment.md rules R79 to R84).  Two further fields are the model's own, the
queue of requests a step reads and the value the last request returned (log entry 5).
-/

namespace Sys2Proof.Machine

/-- A virtual disk: "one BitSequence", offset 0 first (rule R79). -/
abbrev Disk := BitSeq

/-- All storage of the system: disk `j` at index `j` (spec/20_memory.md rule R21; log entry 14). -/
abbrev Memory := List Disk

/-- The one form the storage has: 13 disks, all of the same length (rules R79, R81). -/
def Memory.wf (m : Memory) : Bool :=
  m.length == 13 && m.all (fun d => d.length == (m.headD []).length)

/-- The disk array (rule R83). -/
structure DiskArray where
  /-- The virtual disks (rule R79). -/
  disks : Memory
  /-- The total-capacity counter, in bytes (rules R80, R83). -/
  totalCapacity : Nat
  /-- The free-space counter, in bytes (rules R80, R83). -/
  freeSpace : Nat
  /-- The FileRecords in insertion order (rule R83). -/
  directory : List FileRecord
deriving DecidableEq, Repr

/-- The machine's state; why it holds the words on the ports is log entry 8. -/
structure State where
  /-- The word on `enc_data` (rule R14). -/
  encData : Data
  /-- The word on `enc_cw` (rule R14). -/
  encCw : Codeword
  /-- The word on `dec_cw` (rule R15). -/
  decCw : Codeword
  /-- The words on `dec_status`, `dec_pos`, `dec_data`, `dec_cw_fixed` (rule R15). -/
  decOut : DecOut 8 4 13
  /-- The environment's disk array (rule R17). -/
  array : DiskArray
  /-- What the last request that returns a value returned (rules R96, R105). -/
  reply : Option Reply
  /-- The environment's requests not yet run, in the order it issued them (rules R11, R30). -/
  requests : List Request
deriving DecidableEq, Repr

/-- Why a step stops with a fault. -/
inductive Fault where
  /-- `DEC` under `OOR_POLICY = fault` on a word of odd parity whose syndrome names no position
  (spec/41_decoder.md rule R72).  Raised by the decoder's evaluation.  Safe: the evaluation gets no result. -/
  | syndromeNamesNoPosition
  /-- `read_file` got OneError with `dec_pos >= 13`, so there is no disk to repair (spec/70_reset_and_hazards.md rule
  R122; spec/93_implementation_defined.md U15).  Raised by `read_file`.  Safe: the source gives no behaviour here. -/
  | positionNamesNoDisk
  /-- `dec_status` carried 3, the code that no class has (spec/93_implementation_defined.md U8).  Raised by the consumers
  of the status.  Safe: the rules never produce it. -/
  | statusNeverProduced
  /-- A bit was asked of a disk that has no bit at that offset (rule R81 excludes it).  Raised by `read_file`.  Safe:
  the spec gives an absent bit no value. -/
  | diskBitAbsent
deriving DecidableEq, Repr

/-- Why a step gives a request no meaning. -/
inductive Refusal where
  /-- The operation has no meaning in the model yet.  No arm of `exec` answers it.  Safe. -/
  | notModelled (mnemonic : String)
  /-- A word of another width than its port's was offered (spec/20_memory.md rule R27).  Raised by the step.  Safe: the
  case "has no behaviour because it has no spelling". -/
  | wrongWidth (port : Port) (width : Nat)
  /-- `FLIP` at a position the word does not have (spec/00_scope.md rule R8: "defined only for `p < len(w)`").  Raised
  by the step.  Safe. -/
  | flipOutOfRange (position : Nat)
deriving DecidableEq, Repr

/-- The start of the machine.  The array is as constructed: 13 empty disks, all capacity free, no records
(rules R80, R114).  The blocks have no reset (rule R112); the model's inputs always carry bits (rule R113), and at the
start they carry zeros (log entry 6), so the outputs carry what rules R54 and R71 give for zero words. -/
def State.reset : State where
  encData := 0#8
  encCw := 0#13
  decCw := 0#13
  decOut := { status := 0#2, pos := 0#4, data := 0#8, cwFixed := 0#13 }
  array :=
    { disks := List.replicate 13 []
      totalCapacity := Config.diskSize * 13
      freeSpace := Config.diskSize * 13
      directory := [] }
  reply := none
  requests := []

end Sys2Proof.Machine
end

