-- ==== Sys2Proof/Machine/Operands.lean ====
section
/-!
DEFINITION. Widths and positions: the format of a codeword for any payload width `M` (spec/00_scope.md rules R3, R5, R8;
spec/30_encoding.md rules R35 to R45), and the conversion between bytes and bits (spec/20_memory.md rules R23, R24).
-/

namespace Sys2Proof.Machine

/-- `rmin(M)`: the least `r` in 0, 1, 2, ... with `M + r + 1 <= 2^r` (rule R3).  `r = M + 1` always satisfies it, so
the search over `0 .. M+1` finds one. -/
def rmin (M : Nat) : Nat := ((List.range (M + 2)).find? (fun r => M + r + 1 ≤ 2 ^ r)).getD 0

/-- The codeword width `N = 1 + M + R` (rule R3). -/
def cwWidth (M : Nat) : Nat := 1 + M + rmin M

/-- `rdec(N)`: the decoder's own parity count, the least `r` with `2^r >= N` (rule R43). -/
def rdec (N : Nat) : Nat := ((List.range (N + 1)).find? (fun r => N ≤ 2 ^ r)).getD 0

/-- The payload width of a decoder of word width `N`, where one can be built: `N` must be a codeword width, and then it
decides `M = N - 1 - rdec(N)`.  A request for any other width is refused (rule R45). -/
def payloadOfWidth (N : Nat) : Option Nat :=
  if N = cwWidth (N - 1 - rdec N) then some (N - 1 - rdec N) else none

/-- `pow2(j)`: `j >= 1` and `j` is an exact power of two (rule R8). -/
def pow2 (j : Nat) : Bool := decide (1 ≤ j) && 2 ^ j.log2 == j

/-- `covers(k, j)`: `(j & 2^k) == 2^k` (rule R8). -/
def covers (k j : Nat) : Bool := j &&& 2 ^ k == 2 ^ k

/-- The class of position `j` (rule R35). -/
def posClass (j : Nat) : PosClass :=
  if j = 0 then .overall else if pow2 j then .hamming else .payload

/-- Whether position `j` carries a payload bit: `j >= 1` and not a power of two (rules R35, R42). -/
def isPayload (j : Nat) : Bool := posClass j == .payload

/-- How many payload positions lie below `j`: the number of data bits the encoder's walk has used when it reaches
position `j` (rule R41). -/
def dataIndex (j : Nat) : Nat := (List.range j).countP isPayload

/-- `dpos(i)`: the `(i+1)`-th smallest `j >= 1` that is not a power of two (rule R37).  It lies below `2i + 4`. -/
def dpos (i : Nat) : Nat := ((List.range (2 * i + 4)).filter isPayload).getD i 0

/-- `cover(k)` of a word of width `N` (rule R38). -/
def cover (N k : Nat) : List Nat := (List.range N).filter (covers k)

/-- The positions the encoder walks: `1 .. M+R`, both ends included (rule R41). -/
def walk (M R : Nat) : List Nat := List.range' 1 (M + R)

/-- `bits_of_byte(b)[i] = (b >> (7 - i)) & 1`: most significant bit first (rule R23). -/
def bitsOfByte (b : Byte) : Data := wordOf 8 (fun i => (b >>> (7 - i)).getLsbD 0)

/-- `byte_of_bits(d) = sum of d[i] * 2^(7 - i)` (rule R24). -/
def byteOfBits (d : Data) : Byte :=
  BitVec.ofNat 8 ((List.range 8).map (fun i => (d.getLsbD i).toNat * 2 ^ (7 - i))).sum

/-- A byte sequence as one bit sequence, first byte first (rule R23). -/
def bitsOfBytes (bs : List Byte) : BitSeq := bs.flatMap (fun b => bitsOfWord (bitsOfByte b))

/-- The inverse, group by group of 8 bits (rule R24).  A length that is not a multiple of 8 gives nothing
(spec/93_implementation_defined.md U6). -/
def bytesOfBits : BitSeq → Option (List Byte)
  | [] => some []
  | b0 :: b1 :: b2 :: b3 :: b4 :: b5 :: b6 :: b7 :: rest =>
    (bytesOfBits rest).map
      (fun bs => byteOfBits (wordOfBits 8 [b0, b1, b2, b3, b4, b5, b6, b7]) :: bs)
  | _ => none

end Sys2Proof.Machine
end

