-- ==== Sys2Proof/Machine/Flags.lean ====
section
/-!
DEFINITION. The three signals of one `DEC` evaluation and the classification (spec/41_decoder.md rules R63 to R66).
They are not stored (spec/10_state.md rule R12); `ENC` has none.
-/

namespace Sys2Proof.Machine

/-- `XOR{ w[j] : j in S }`; 0 when `S` is empty (spec/00_scope.md rule R8). -/
def xorOver {N : Nat} (w : BitVec N) (S : List Nat) : Bool :=
  S.foldr (fun j acc => w.getLsbD j ^^ acc) false

/-- `ov`: the XOR of all bits, position 0 included (rule R63). -/
def overallParity {N : Nat} (w : BitVec N) : Bool := xorOver w (List.range N)

/-- `chk[k]`: the parity of the positions that parity bit `2^k` covers; `true` means that bit is wrong (rule R64). -/
def check {N : Nat} (w : BitVec N) (k : Nat) : Bool := xorOver w (cover N k)

/-- `syn`: the sum of the wrong parity-bit values over `k = 0 .. R-1` (rules R44, R65). -/
def syndrome {N : Nat} (R : Nat) (w : BitVec N) : Nat :=
  ((List.range R).map (fun k => (check w k).toNat * 2 ^ k)).sum

/-- The result class as a function of `ov` and of whether `syn` is zero; `ov = 1` decides before the checks are looked
at (rule R66; spec/60_exceptions.md rule R101). -/
def classify (ov : Bool) (syn : Nat) : ResultClass :=
  if ov then .oneError else if syn = 0 then .noError else .doubleError

/-- The code of a class on `dec_status` (spec/30_encoding.md rule R48). -/
def statusCode : ResultClass → BitVec 2
  | .noError => 0#2
  | .oneError => 1#2
  | .doubleError => 2#2

/-- The class a status code names; 3 names none (rule R48). -/
def classOfStatus (st : BitVec 2) : Option ResultClass :=
  if st = 0#2 then some .noError
  else if st = 1#2 then some .oneError
  else if st = 2#2 then some .doubleError
  else none

/-- The class of a tagged result. -/
def resultClass {M : Nat} : DecResult M → ResultClass
  | .noError _ => .noError
  | .oneError _ _ => .oneError
  | .doubleError => .doubleError

end Sys2Proof.Machine
end

