-- ==== Sys2Proof/Machine/Ops.lean ====
section
/-!
DEFINITION. The shared operations: the two codec functions for any payload width and at this build's widths, driving the
two blocks' ports, presenting a result class, and the primitives over the virtual disks
(spec/40_encoder.md rule R54; spec/41_decoder.md rule R71; spec/30_encoding.md rule R47; spec/60_exceptions.md rules
R98, R103; spec/00_scope.md rule R8).
-/

namespace Sys2Proof.Machine

/-! ### Words -/

/-- `flip(w, p)`: element `p` complemented (rule R8, which defines it for `p < len(w)` only; beyond the word this total
function leaves the word, and nothing in the machine applies it there: log entry 20). -/
def flipBit {N : Nat} (w : BitVec N) (p : Nat) : BitVec N := w ^^^ BitVec.twoPow N p

/-- The word with element `p` made `v`. -/
def setBit {N : Nat} (w : BitVec N) (p : Nat) (v : Bool) : BitVec N :=
  if w.getLsbD p = v then w else flipBit w p

/-- Every position of a list flipped in turn (spec/41_decoder.md rule R74: the set `E`). -/
def flipAll {N : Nat} (w : BitVec N) (E : List Nat) : BitVec N := E.foldl flipBit w

/-! ### The encoder, rule R54 -/

/-- Step 1: each payload position takes the next unused data bit, every other position holds 0 (rule R41). -/
def placeData {M : Nat} (N : Nat) (d : BitVec M) : BitVec N :=
  wordOf N (fun j => if isPayload j then d.getLsbD (dataIndex j) else false)

/-- Step 2: each Hamming parity bit becomes the XOR of the walked positions it covers. -/
def fillHamming {N : Nat} (M R : Nat) (cw : BitVec N) : BitVec N :=
  (List.range R).foldl (fun c k => setBit c (2 ^ k) (xorOver c ((walk M R).filter (covers k)))) cw

/-- Step 3: position 0 becomes the XOR of every other bit. -/
def fillOverall {N : Nat} (M R : Nat) (cw : BitVec N) : BitVec N :=
  setBit cw 0 (xorOver cw (walk M R))

/-- `ENC` for payload width `M`, parity count `R` and codeword width `N`. -/
def encodeAt (M R N : Nat) (d : BitVec M) : BitVec N :=
  fillOverall M R (fillHamming M R (placeData N d))

/-- `ENC` of the codec family (rule R3): the widths follow from `M`. -/
def familyEnc (M : Nat) (d : BitVec M) : BitVec (cwWidth M) := encodeAt M (rmin M) (cwWidth M) d

/-- `ENC` of this build. -/
def encWord (d : Data) : Codeword := encodeAt 8 4 13 d

/-! ### The decoder, rule R71 -/

/-- `extract(w)`: the bits at the payload positions in ascending order, position 0 excluded (rule R42). -/
def extract {N : Nat} (M : Nat) (w : BitVec N) : BitVec M := wordOf M (fun i => w.getLsbD (dpos i))

/-- `DEC` for payload width `M`, parity count `R` and word width `N`: the tagged result and the word after the
correction.  `none` is the evaluation without a result of `OOR_POLICY = fault` (rule R72). -/
def decodeAt {N : Nat} (pol : OorPolicy) (M R : Nat) (w : BitVec N) : Option (DecResult M × BitVec N) :=
  let syn := syndrome R w
  match classify (overallParity w) syn with
  | .noError => some (.noError (extract M w), w)
  | .oneError =>
    if syn < N then some (.oneError (extract M (flipBit w syn)) syn, flipBit w syn)
    else match pol with
      | .reportNoFlip => some (.oneError (extract M w) syn, w)
      | .fault => none
  | .doubleError => some (.doubleError, w)

/-- `DEC` of the codec family (rule R3): the widths follow from `M`. -/
def familyDec (pol : OorPolicy) (M : Nat) (w : BitVec (cwWidth M)) :
    Option (DecResult M × BitVec (cwWidth M)) :=
  decodeAt pol M (rmin M) w

/-- `DEC` of this build. -/
def decWord (pol : OorPolicy) (w : Codeword) : Option (DecResult 8 × Codeword) := decodeAt pol 8 4 w

/-- What a result class puts on the four output ports: the hardware's only "exception", a value and not an event
(rules R47, R98, R100, R103).  `fixed` is the word after the correction. -/
def portsOfResult {M N : Nat} (R : Nat) (r : DecResult M) (fixed : BitVec N) : DecOut M R N :=
  match r with
  | .noError p => { status := statusCode .noError, pos := 0#R, data := p, cwFixed := fixed }
  | .oneError p e => { status := statusCode .oneError, pos := BitVec.ofNat R e, data := p, cwFixed := fixed }
  | .doubleError => { status := statusCode .doubleError, pos := 0#R, data := 0#M, cwFixed := fixed }

/-- The four output ports of this build's decoder as a function of `dec_cw` (rule R15). -/
def decPorts (pol : OorPolicy) (w : Codeword) : Option (DecOut 8 4 13) :=
  match decWord pol w with
  | some (r, fixed) => some (portsOfResult 4 r fixed)
  | none => none

/-! ### Updates of the state -/

/-- The encoder's wires carry `d` and `cw`. -/
def State.withEnc (s : State) (d : Data) (cw : Codeword) : State := { s with encData := d, encCw := cw }

/-- The decoder's wires carry `w` and `o`. -/
def State.withDec (s : State) (w : Codeword) (o : DecOut 8 4 13) : State := { s with decCw := w, decOut := o }

/-- The disk array is replaced. -/
def State.withArray (s : State) (a : DiskArray) : State := { s with array := a }

/-- The contents of the disks are replaced. -/
def State.withDisks (s : State) (ds : Memory) : State := { s with array := { s.array with disks := ds } }

/-- A value is returned to the environment. -/
def State.withReply (s : State) (r : Reply) : State := { s with reply := some r }

/-- The queue of requests is replaced. -/
def State.withRequests (s : State) (q : List Request) : State := { s with requests := q }

/-! ### Driving the blocks -/

/-- `data` is driven on `enc_data`, and `enc_cw` follows (rule R14). -/
def driveEnc (d : Data) (s : State) : State := s.withEnc d (encWord d)

/-- `w` is driven on `dec_cw`, and the four outputs follow (rule R15).  `none` under `OOR_POLICY = fault` only. -/
def driveDec (pol : OorPolicy) (w : Codeword) (s : State) : Option State :=
  match decPorts pol w with
  | some o => some (s.withDec w o)
  | none => none

/-! ### The virtual disks: the primitives of rule R8 -/

/-- `DiskRead(j, o)`: the bit at offset `o` of disk `j`. -/
def diskRead (ds : Memory) (j o : Nat) : Option Bool :=
  match ds[j]? with
  | some d => d[o]?
  | none => none

/-- `DiskWrite(j, o, v)`: the bit at offset `o` of disk `j` becomes `v`; `none` where there is no such bit. -/
def diskWrite (ds : Memory) (j o : Nat) (v : Bool) : Option Memory :=
  match diskRead ds j o with
  | some _ => some (ds.modify j (fun d => d.set o v))
  | none => none

/-- `DiskAppend(j, v)`: disk `j` grows by the bit `v`. -/
def diskAppend (ds : Memory) (j : Nat) (v : Bool) : Memory := ds.modify j (fun d => d ++ [v])

/-- Every bit of disk `j` complemented (spec/42_array_environment.md rule R93). -/
def diskComplement (ds : Memory) (j : Nat) : Memory := ds.modify j (fun d => d.map (fun b => !b))

/-- Bit `j` of a codeword appended to disk `j`, for every `j` (rule R86). -/
def appendCodeword (ds : Memory) (cw : Codeword) : Memory :=
  (List.range 13).foldl (fun m j => diskAppend m j (cw.getLsbD j)) ds

/-- The 13 bits at offset `o`, gathered into a word (rule R90); `none` where some disk has no bit there. -/
def gather (ds : Memory) (o : Nat) : Option Codeword :=
  if (List.range 13).all (fun j => (diskRead ds j o).isSome) then
    some (wordOf 13 (fun j => (diskRead ds j o).getD false))
  else none

/-- The common disk length: how many bytes have been written (rules R81, R87). -/
def usedBytes (ds : Memory) : Nat := (ds.headD []).length

end Sys2Proof.Machine
end

