-- ==== Sys2Proof/Machine/Array.lean ====
section
/-!
DEFINITION. The disk array, the environment the codec is used in (spec/42_array_environment.md).  It reaches the codec
only through its ports: it drives `enc_data` and `dec_cw` and reads the outputs under `dec_status`.  Each operation runs
to completion in one step (spec/20_memory.md rules R28, R30).
-/

namespace Sys2Proof.Machine

/-- `construction(disk_size)`: `1 + 8 + R = 13` empty disks, all capacity free, an empty directory (rule R80). -/
def constructArray (diskSize : Nat) : DiskArray :=
  { disks := List.replicate 13 []
    totalCapacity := diskSize * 13
    freeSpace := diskSize * 13
    directory := [] }

/-- The array is constructed: the environment starts again, and nothing of an earlier array survives
(rule R80; spec/70_reset_and_hazards.md rule R114; log entry 7). -/
def execConstruct (diskSize : Nat) (s : State) : Host.Outcome State Fault Refusal :=
  .next ((s.withArray (constructArray diskSize)).withReply .constructed)

/-! ### write_file -/

/-- One byte striped: `ENC` of its bits, then bit `j` of `enc_cw` appended to disk `j` (rule R86). -/
def storeByte (s : State) (b : Byte) : State :=
  let t := driveEnc (bitsOfByte b) s
  t.withDisks (appendCodeword t.array.disks t.encCw)

/-- All bytes striped in order (rule R86). -/
def storeBytes (data : List Byte) (s : State) : State := data.foldl storeByte s

/-- The write entered in the books: a record over the new byte range, and the free space down by the number of bytes
(rule R87). -/
def registerFile (start : Nat) (data : List Byte) (kind : FileKind) (name : String) (a : DiskArray) : DiskArray :=
  { a with
    freeSpace := a.freeSpace - data.length
    directory := a.directory ++
      [{ name := name, startPos := start, endPos := start + data.length, size := data.length, kind := kind }] }

/-- Whether the directory has a record of that name. -/
def nameTaken (dir : List FileRecord) (name : String) : Bool := dir.any (fun r => r.name == name)

/-- `write_file` under a given `DUP_NAME_POLICY`: it proceeds only when the free space is strictly greater than the
number of bytes (rules R85 to R88). -/
def writeFileWith (dup : DupNamePolicy) (data : List Byte) (kind : FileKind) (name : String) (s : State) :
    Host.Outcome State Fault Refusal :=
  if s.array.freeSpace > data.length then
    if dup = .rejectDuplicates ∧ nameTaken s.array.directory name = true then
      .next (s.withReply .duplicateName)
    else
      let t := storeBytes data s
      .next ((t.withArray (registerFile (usedBytes s.array.disks) data kind name t.array)).withReply .written)
  else .next (s.withReply .notEnoughSpace)

/-- `write_file` of this environment. -/
def execWriteFile (data : List Byte) (kind : FileKind) (name : String) (s : State) :
    Host.Outcome State Fault Refusal :=
  writeFileWith Config.dupNamePolicy data kind name s

/-! ### read_file -/

/-- The record a lookup returns: the earliest of that name, or the latest where duplicates shadow (rules R83, R88). -/
def lookup (dup : DupNamePolicy) (dir : List FileRecord) (name : String) : Option FileRecord :=
  match dup with
  | .firstMatch => dir.find? (fun r => r.name == name)
  | .rejectDuplicates => dir.find? (fun r => r.name == name)
  | .lastShadows => dir.reverse.find? (fun r => r.name == name)

/-- The three targets of the per-byte state machine, and the stop (rule R94). -/
inductive ByteRead where
  /-- NoError: the byte. -/
  | clean (b : Byte) (s : State)
  /-- OneError: the byte, and the state with the faulty bit repaired on its disk. -/
  | healed (b : Byte) (s : State)
  /-- DoubleError: the read is abandoned. -/
  | abort (s : State)
  /-- No behaviour is given. -/
  | stopped (f : Fault)
deriving DecidableEq, Repr

/-- The faulty bit repaired in place: the owning disk of position `dec_pos` takes `dec_cw_fixed[dec_pos]` at offset
`o` (rule R91).  A position that names no disk stops the read (spec/70_reset_and_hazards.md rule R122,
log entry 11). -/
def repairBit (o : Nat) (s : State) : ByteRead :=
  match diskWrite s.array.disks s.decOut.pos.toNat o (s.decOut.cwFixed.getLsbD s.decOut.pos.toNat) with
  | some ds => .healed (byteOfBits s.decOut.data) (s.withDisks ds)
  | none => .stopped .positionNamesNoDisk

/-- What the environment does with the class on `dec_status` (rules R91, R92, R94). -/
def acceptByte (o : Nat) (s : State) : ByteRead :=
  match classOfStatus s.decOut.status with
  | some .noError => .clean (byteOfBits s.decOut.data) s
  | some .oneError => repairBit o s
  | some .doubleError => .abort s
  | none => .stopped .statusNeverProduced

/-- One logical byte read: the 13 bits gathered, `DEC`, and the result taken (rules R90 to R92). -/
def readByte (pol : OorPolicy) (o : Nat) (s : State) : ByteRead :=
  match gather s.array.disks o with
  | some w =>
    match driveDec pol w s with
    | some t => acceptByte o t
    | none => .stopped .syndromeNamesNoPosition
  | none => .stopped .diskBitAbsent

/-- The bytes of a range read in ascending order; `acc` holds those already accepted.  A DoubleError abandons the
whole read, and repairs already made stay (rules R90 to R92). -/
def readBytes (pol : OorPolicy) (kind : FileKind) :
    (count o : Nat) → (acc : List Byte) → State → Host.Outcome State Fault Refusal
  | 0, _, acc, s => .next (s.withReply (.contents kind acc))
  | n + 1, o, acc, s =>
    match readByte pol o s with
    | .clean b t => readBytes pol kind n (o + 1) (acc ++ [b]) t
    | .healed b t => readBytes pol kind n (o + 1) (acc ++ [b]) t
    | .abort t => .next (t.withReply .disksCorrupted)
    | .stopped f => .fault f

/-- `read_file` under given policies (rules R89 to R92). -/
def readFileWith (pol : OorPolicy) (dup : DupNamePolicy) (name : String) (s : State) :
    Host.Outcome State Fault Refusal :=
  match lookup dup s.array.directory name with
  | some r => readBytes pol r.kind (r.endPos - r.startPos) r.startPos [] s
  | none => .next (s.withReply .notFound)

/-- `read_file` of this environment. -/
def execReadFile (name : String) (s : State) : Host.Outcome State Fault Refusal :=
  readFileWith Config.oorPolicy Config.dupNamePolicy name s

/-! ### corrupt_disk -/

/-- `corrupt_disk(n)`: for `1 <= n <= 13` every bit of disk `n - 1` is complemented, at every offset; any other
number changes nothing and returns false (rule R93). -/
def execCorruptDisk (n : Nat) (s : State) : Host.Outcome State Fault Refusal :=
  if 1 ≤ n ∧ n ≤ 13 then
    .next ((s.withDisks (diskComplement s.array.disks (n - 1))).withReply (.inRange true))
  else .next (s.withReply (.inRange false))

end Sys2Proof.Machine
end

