-- ==== Sys2Proof/Machine/Decoder.lean ====
section
/-!
DEFINITION. The meaning of `DEC` (spec/41_decoder.md rules R71, R72).
-/

namespace Sys2Proof.Machine

/-- `DEC` under a given `OOR_POLICY`: the word is driven on `dec_cw` and exactly one result class appears on the
outputs.  Under `fault` a word of odd parity whose syndrome names no position gets no result (rule R72). -/
def execDecWith (pol : OorPolicy) (cw : Codeword) (s : State) : Host.Outcome State Fault Refusal :=
  match driveDec pol cw s with
  | some t => .next t
  | none => .fault .syndromeNamesNoPosition

/-- `DEC` of this build, at the policy rule R71 writes out. -/
def execDec (cw : Codeword) (s : State) : Host.Outcome State Fault Refusal :=
  execDecWith Config.oorPolicy cw s

end Sys2Proof.Machine
end

