-- ==== Sys2Proof/Machine/Encoder.lean ====
section
/-!
DEFINITION. The meaning of `ENC` (spec/40_encoder.md rule R54).
-/

namespace Sys2Proof.Machine

/-- `ENC`: the payload is driven on `enc_data` and its codeword appears on `enc_cw`.  Total: every word has a result,
no flag is written and no class is raised (rule R54). -/
def execEnc (data : Data) (s : State) : Host.Outcome State Fault Refusal :=
  .next (driveEnc data s)

end Sys2Proof.Machine
end

