-- ==== Sys2Proof/Machine/Dispatch.lean ====
section
/-!
DEFINITION. The dispatch from an operation to its meaning, one arm for each row of spec/opcode_table.json.
-/

namespace Sys2Proof.Machine

def exec (i : Instr) (s : State) : Host.Outcome State Fault Refusal :=
  match i with
  | .enc data => Sys2Proof.Machine.execEnc data s
  | .dec cw => Sys2Proof.Machine.execDec cw s

end Sys2Proof.Machine
end

