-- ==== Sys2Proof/Machine/Pseudo.lean ====
section
/-!
DEFINITION. The environment's pseudo-operations and its bit flip (spec/30_encoding.md rules R52, R53).
-/

namespace Sys2Proof.Machine

/-- `ENCB b`: `ENC` of the byte's bits (rule R53). -/
def execEncb (b : Byte) (s : State) : Host.Outcome State Fault Refusal := execEnc (bitsOfByte b) s

/-- What the consumer of a decode returns for the byte: it reads `dec_data` only when `dec_status` says there is a
payload (spec/70_reset_and_hazards.md rule R119). -/
def replyByte (s : State) : Host.Outcome State Fault Refusal :=
  match classOfStatus s.decOut.status with
  | some .noError => .next (s.withReply (.byte (byteOfBits s.decOut.data)))
  | some .oneError => .next (s.withReply (.byte (byteOfBits s.decOut.data)))
  | some .doubleError => .next (s.withReply .noByte)
  | none => .fault .statusNeverProduced

/-- `DECB w`: `DEC w`, then the byte of the payload where there is one (rule R53). -/
def execDecb (w : Codeword) (s : State) : Host.Outcome State Fault Refusal :=
  match execDec w s with
  | .next t => replyByte t
  | .fault f => .fault f
  | .refused r => .refused r

/-- `FLIP w, p`: a bit of a word complemented outside the blocks; the word must have that position (rules R8, R52). -/
def execFlip (w : Codeword) (p : Nat) (s : State) : Host.Outcome State Fault Refusal :=
  if p < 13 then .next (s.withReply (.flipped (flipBit w p))) else .refused (.flipOutOfRange p)

end Sys2Proof.Machine
end

