-- ==== Sys2Proof/Machine/Requests.lean ====
section
/-!
DEFINITION. Running one request of the environment (spec/10_state.md rule R11; spec/20_memory.md rules R28, R30).
-/

namespace Sys2Proof.Machine

/-- A word offered to an input port: the decoder reads the operation and `exec` runs it; a word of another width than
the port's is refused (spec/20_memory.md rule R27). -/
def runDrive (w : PortWord) (s : State) : Host.Outcome State Fault Refusal :=
  match decode w with
  | .ok i => exec i s
  | .error (.wrongWidth p n) => .refused (.wrongWidth p n)

/-- One request, run to completion. -/
def runRequest (r : Request) (s : State) : Host.Outcome State Fault Refusal :=
  match r with
  | .drive w => runDrive w s
  | .flip w p => execFlip w p s
  | .encb b => execEncb b s
  | .decb w => execDecb w s
  | .construct n => execConstruct n s
  | .writeFile data kind name => execWriteFile data kind name s
  | .readFile name => execReadFile name s
  | .corruptDisk n => execCorruptDisk n s

/-- No request is waiting: nothing advances (rule R11), and every wire keeps its value. -/
def idle (s : State) : Host.Outcome State Fault Refusal := .next s

/-- The oldest request is taken off the queue and run; with none waiting the machine is idle. -/
def runNext (s : State) : Host.Outcome State Fault Refusal :=
  match s.requests with
  | [] => idle s
  | r :: rest => runRequest r (s.withRequests rest)

/-- The request that offers a word of the opcode table, put at the head of the queue. -/
def placeWord (s : State) (nbits w : Nat) : State :=
  s.withRequests (.drive (tablePortWord nbits w) :: s.requests)

end Sys2Proof.Machine
end

