-- ==== Sys2Proof/Machine/Text.lean ====
section
/-!
DEFINITION. The text form of bit sequences and of operations (spec/20_memory.md rule R26; spec/30_encoding.md rule R52):
the characters 0 and 1, element 0 leftmost, no separators.
-/

namespace Sys2Proof.Machine

/-- The characters of a bit sequence (rules R6, R26). -/
def textOfBits (bits : BitSeq) : String := String.ofList (bits.map (fun b => if b then '1' else '0'))

/-- A bit of a bit string; any other character is none. -/
def bitOfChar (c : Char) : Option Bool :=
  if c = '0' then some false else if c = '1' then some true else none

/-- The bit sequence a bit string writes, if all its characters are 0 or 1. -/
def bitsOfText (t : String) : Option BitSeq := t.toList.mapM bitOfChar

/-- A word as its bit string. -/
def textOfWord {n : Nat} (w : BitVec n) : String := textOfBits (bitsOfWord w)

/-- The line of an `ENC` (rule R52; its spacing is log entry 19). -/
def textOfEnc (d : Data) : String := "ENC " ++ textOfWord d ++ " -> " ++ textOfWord (encWord d)

/-- The right-hand side of a `DEC` line (rule R52); `fixed` is the word after the correction. -/
def textOfResult {M N : Nat} (r : DecResult M) (fixed : BitVec N) : String :=
  match r with
  | .noError p => "NoError data=" ++ textOfWord p ++ " fixed=" ++ textOfWord fixed
  | .oneError p e =>
    "OneError pos=" ++ Nat.repr e ++ " data=" ++ textOfWord p ++ " fixed=" ++ textOfWord fixed
  | .doubleError => "DoubleError"

/-- The line of a `DEC` (rule R52); an evaluation without a result (rule R72) has no line. -/
def textOfDec (pol : OorPolicy) (w : Codeword) : Option String :=
  match decWord pol w with
  | some (r, fixed) => some ("DEC " ++ textOfWord w ++ " -> " ++ textOfResult r fixed)
  | none => none

/-- The line of a `FLIP` (rule R52).  Rule R8 defines the flip only at a position of the word; that any other position has
no line is the model's choice (DESIGN CHOICE, log entry 20). -/
def textOfFlip (w : Codeword) (p : Nat) : Option String :=
  if p < 13 then
    some ("FLIP " ++ textOfWord w ++ ", " ++ Nat.repr p ++ " -> " ++ textOfWord (flipBit w p))
  else none

end Sys2Proof.Machine
end

