-- ==== Sys2Proof/Safety.lean ====
section
/-!
DEFINITION. The premises and invariants that claims are stated with.
-/

namespace Sys2Proof.Machine

/-- A contract input of the decoder: an encoder output with 0, 1 or 2 bits flipped (spec/41_decoder.md rule R62).  The
premise "at most two flips" of every claim of correct decoding (rule R73). -/
def ContractInput (w : Codeword) : Prop :=
  ∃ (d : Data) (E : List Nat), E.Nodup ∧ E.length ≤ 2 ∧ (∀ p ∈ E, p < 13) ∧ w = flipAll (encWord d) E

/-- A stored word whose byte `read_file` accepts: NoError, or OneError at a position that names a disk
(spec/42_array_environment.md rule R91).  OneError at 13 to 15 is left out by the model's stop at such a word
(spec/70_reset_and_hazards.md rule R122, U15; log entry 11). -/
def ByteReadable (w : Codeword) : Prop :=
  (overallParity w = false ∧ syndrome 4 w = 0) ∨ (overallParity w = true ∧ syndrome 4 w < 13)

/-- From `s` to `t` every stored word at the `n` offsets from `o` on was decoded and left as `dec_cw_fixed` gives it, and
no other stored bit changed (rule R91). -/
def RangeRepaired (s t : State) (o n : Nat) : Prop :=
  (∀ k, o ≤ k → k < o + n → ∃ w p, gather s.array.disks k = some w ∧ decPorts Config.oorPolicy w = some p ∧
    gather t.array.disks k = some p.cwFixed) ∧
  ∀ j k, ¬ (o ≤ k ∧ k < o + n) → diskRead t.array.disks j k = diskRead s.array.disks j k

/-- The bytes are those of the payloads the decoder gives for the words stored from offset `o` on (rule R91). -/
def BytesDecoded (s : State) (o : Nat) (bytes : List Byte) : Prop :=
  ∀ k, k < bytes.length → ∃ w p, gather s.array.disks (o + k) = some w ∧ decPorts Config.oorPolicy w = some p ∧
    bytes[k]? = some (byteOfBits p.data)

/-- The outputs carry what their inputs give, at all times (spec/10_state.md rules R14, R15). -/
def PortsFollow (s : State) : Prop :=
  s.encCw = encWord s.encData ∧ decPorts Config.oorPolicy s.decCw = some s.decOut

/-- The capacity counters count the bytes written (spec/42_array_environment.md rules R80, R85, R87, R97). -/
def CapacityCounts (a : DiskArray) : Prop :=
  a.freeSpace + usedBytes a.disks = a.totalCapacity ∧ a.totalCapacity % 13 = 0

/-- Each record's size is the length of its half-open range, and the range lies in what has been written (rule R82). -/
def DirectorySound (a : DiskArray) : Prop :=
  ∀ r ∈ a.directory, r.startPos + r.size = r.endPos ∧ r.endPos ≤ usedBytes a.disks

/-- The invariant of the machine. -/
structure StateInv (s : State) : Prop where
  ports : PortsFollow s
  lockStep : s.array.disks.wf = true
  capacity : CapacityCounts s.array
  directory : DirectorySound s.array

/-- A step is safe when it answers a next state. -/
def SafeStep (s : State) : Prop := ∃ t, step s = .next t

end Sys2Proof.Machine
end

