-- ==== Sys2Proof/Certificates/Slice0/Obligations.lean ====
section
/-!
DEFINITION. The statements for the provers.

Several rules of the spec are marked by the spec itself as its own decisions or derivations (spec/92_eei_decisions.md,
`[derived: ...]`).  A statement that rests on one says so in its docstring, with the decision's number.
-/

open Sys2Proof Sys2Proof.Machine

/-! ## Encoding and the step -/

/-- O1.  Decoding the encoding of a well-formed operation gives it back; every accepted port word is the encoding of its
operation; and a port word is accepted exactly when its width is its port's (rules R27, R46, R47, R50). -/
def Obligations.DecodeAndEncodeAgree : Prop :=
  (∀ i : Instr, i.WellFormed → decode (encode i) = .ok i) ∧
  (∀ (w : PortWord) (i : Instr), decode w = .ok i → encode i = w) ∧
  (∀ w : PortWord, (∃ i, decode w = .ok i) ↔ w.wellFormed = true)

/-- O2.  Words written out from the encodings of rules R23, R39 and of the worked examples of rules R54, R71 decode to
the operations they stand for; words of another width decode to none. -/
def Obligations.SampleWordsDecode : Prop :=
  -- the byte 0x48 as its data bits d0 .. d7 = 0 1 0 0 1 0 0 0
  decode ⟨.encData, [false, true, false, false, true, false, false, false]⟩ = .ok (.enc (bitsOfByte 0x48#8)) ∧
  -- unit d0: only wire 0
  decode ⟨.encData, [true, false, false, false, false, false, false, false]⟩ = .ok (.enc 1#8) ∧
  -- "0000111011000": positions 4, 5, 6, 8, 9
  decode ⟨.decCw, [false, false, false, false, true, true, true, false, true, true, false, false, false]⟩
    = .ok (.dec (BitVec.ofNat 13 (2 ^ 4 + 2 ^ 5 + 2 ^ 6 + 2 ^ 8 + 2 ^ 9))) ∧
  decode ⟨.encData, [true, false, false, false, false, false, false]⟩ = .error (.wrongWidth .encData 7) ∧
  decode ⟨.decCw, List.replicate 14 false⟩ = .error (.wrongWidth .decCw 14)

/-- O3.  When the oldest request offers a word that decodes to an operation, the step takes the request off the queue
and is `exec` of that operation (rule R11; the queue is the model's own, log entry 5). -/
def Obligations.StepRunsTheDecodedOperation : Prop :=
  ∀ (s : State) (w : PortWord) (rest : List Request) (i : Instr),
    s.requests = .drive w :: rest → decode w = .ok i → step s = exec i (s.withRequests rest)

/-- O4.  A table word placed for the next step is run by it, with the state's own requests still waiting behind it
(log entry 4). -/
def Obligations.PlacedWordRunsNext : Prop :=
  ∀ (s : State) (nbits w : Nat) (i : Instr),
    decodeTableWord nbits w = some i → step (s.withFetchWord nbits w) = exec i s

/-- O5.  A step that is offered a word of its port's width answers a next state, whatever the word (rule R51: no word is
reserved); a word of any other width is refused under its port and width (rule R27, decision D10). -/
def Obligations.EveryWordOfItsWidthRuns : Prop :=
  ∀ (s : State) (w : PortWord) (rest : List Request), s.requests = .drive w :: rest →
    (w.bits.length = w.port.width → ∃ t, step s = .next t ∧ t.requests = rest) ∧
    (w.bits.length ≠ w.port.width → step s = .refused (.wrongWidth w.port w.bits.length))

/-- O6.  Every step takes exactly the oldest request off the queue, so requests take effect in the order they were issued
(rule R30); with none waiting nothing changes (rule R11).  The queue is the model's own (log entry 5). -/
def Obligations.RequestsRunInOrder : Prop :=
  (∀ (s t : State) (r : Request) (rest : List Request),
    s.requests = r :: rest → step s = .next t → t.requests = rest) ∧
  (∀ s : State, s.requests = [] → step s = .next s)

/-! ## Widths and positions, for every payload width -/

/-- O7.  `rmin(M)` is the least `r >= 0` with `M + r + 1 <= 2^r`, and it is `r >= 2` exactly on the range rule R5 gives;
1 is never minimal (rules R3, R5; the search from 0 is decision D9). -/
def Obligations.ParityCountIsLeast : Prop :=
  ∀ M : Nat,
    M + rmin M + 1 ≤ 2 ^ rmin M ∧
    (∀ r, r < rmin M → 2 ^ r < M + r + 1) ∧
    (∀ r, 2 ≤ r → (rmin M = r ↔ 2 ^ (r - 1) < M + r ∧ M + r + 1 ≤ 2 ^ r)) ∧
    (rmin M = 0 ↔ M = 0) ∧ rmin M ≠ 1

/-- O8.  On every codeword width the decoder's own parity count is the encoder's and the width decides the payload width;
the widths for which no decoder is built are 0 and those of the form `2^k + 1` (rules R43, R45, decision D10). -/
def Obligations.DecoderWidths : Prop :=
  (∀ M : Nat, rdec (cwWidth M) = rmin M ∧ payloadOfWidth (cwWidth M) = some M) ∧
  (∀ N M : Nat, payloadOfWidth N = some M → N = cwWidth M) ∧
  (∀ N : Nat, payloadOfWidth N = none ↔ N = 0 ∨ ∃ k, N = 2 ^ k + 1)

/-- O9.  A codeword has exactly `M` payload positions and `R` Hamming positions; `dpos` lists the payload positions in
ascending order, data bit `i` falls inside the word, and the encoder's count of used bits is its inverse
(rules R36, R37, R41, R42). -/
def Obligations.PayloadPositions : Prop :=
  (∀ M : Nat, (List.range (cwWidth M)).countP isPayload = M ∧
    (List.range (cwWidth M)).countP (fun j => posClass j = .hamming) = rmin M) ∧
  (∀ i : Nat, isPayload (dpos i) = true ∧ dataIndex (dpos i) = i ∧ dpos i < dpos (i + 1)) ∧
  (∀ j : Nat, isPayload j = true → dpos (dataIndex j) = j) ∧
  (∀ M i : Nat, i < M → dpos i < cwWidth M)

/-- O10.  `cover(k)` holds the Hamming position `2^k` of the word and no other Hamming position; position 0 is in none;
every payload position of the word is in two of them (rule R38). -/
def Obligations.CoverSets : Prop :=
  ∀ M : Nat,
    (∀ k, k < rmin M → 2 ^ k ∈ cover (cwWidth M) k) ∧
    (∀ k k', k' ≠ k → 2 ^ k' ∉ cover (cwWidth M) k) ∧
    (∀ k, 0 ∉ cover (cwWidth M) k) ∧
    (∀ j, j < cwWidth M → isPayload j = true →
      ∃ k k', k < k' ∧ k' < rmin M ∧ j ∈ cover (cwWidth M) k ∧ j ∈ cover (cwWidth M) k')

/-! ## ENC -/

/-- O11.  `ENC` completes on every payload in every state, and `enc_cw` carries the parity equations and the data map of
rule R56, with both forms of `P0`. -/
def Obligations.EncCompletesWithItsEquations : Prop :=
  ∀ (d : Data) (s : State), ∃ t, exec (.enc d) s = .next t ∧ t.encData = d ∧
    (∀ i, i < 8 → t.encCw.getLsbD ([3, 5, 6, 7, 9, 10, 11, 12].getD i 0) = d.getLsbD i) ∧
    t.encCw.getLsbD 1 = (d.getLsbD 0 ^^ d.getLsbD 1 ^^ d.getLsbD 3 ^^ d.getLsbD 4 ^^ d.getLsbD 6) ∧
    t.encCw.getLsbD 2 = (d.getLsbD 0 ^^ d.getLsbD 2 ^^ d.getLsbD 3 ^^ d.getLsbD 5 ^^ d.getLsbD 6) ∧
    t.encCw.getLsbD 4 = (d.getLsbD 1 ^^ d.getLsbD 2 ^^ d.getLsbD 3 ^^ d.getLsbD 7) ∧
    t.encCw.getLsbD 8 = (d.getLsbD 4 ^^ d.getLsbD 5 ^^ d.getLsbD 6 ^^ d.getLsbD 7) ∧
    t.encCw.getLsbD 0 =
      (d.getLsbD 0 ^^ d.getLsbD 1 ^^ d.getLsbD 2 ^^ d.getLsbD 4 ^^ d.getLsbD 5 ^^ d.getLsbD 7) ∧
    t.encCw.getLsbD 0 =
      (t.encCw.getLsbD 1 ^^ t.encCw.getLsbD 2 ^^ t.encCw.getLsbD 4 ^^ t.encCw.getLsbD 8 ^^
        d.getLsbD 0 ^^ d.getLsbD 1 ^^ d.getLsbD 2 ^^ d.getLsbD 3 ^^
        d.getLsbD 4 ^^ d.getLsbD 5 ^^ d.getLsbD 6 ^^ d.getLsbD 7)

/-- O12.  `ENC` changes its own two ports and nothing else: not the decoder's wires, not the array, not a bit of any
disk (rules R10, R14, R17, R20). -/
def Obligations.EncFrame : Prop :=
  ∀ (d : Data) (s t : State), exec (.enc d) s = .next t →
    t.decCw = s.decCw ∧ t.decOut = s.decOut ∧ t.array = s.array ∧ t.reply = s.reply ∧
    t.requests = s.requests ∧
    ∀ j o, diskRead t.array.disks j o = diskRead s.array.disks j o

/-- O13.  For every payload width, `ENC` is linear over bits and sends zero to zero (rule R58). -/
def Obligations.EncIsLinear : Prop :=
  ∀ M : Nat, familyEnc M 0 = 0 ∧
    ∀ a b : BitVec M, familyEnc M (a ^^^ b) = familyEnc M a ^^^ familyEnc M b

/-- O14.  For every payload width, a codeword passes every parity check, has even overall parity, and gives its payload
back on extraction; this build's `ENC` is the family's at `M = 8` (rules R4, R42, R57). -/
def Obligations.CodewordsPassEveryCheck : Prop :=
  (∀ (M : Nat) (d : BitVec M),
    overallParity (familyEnc M d) = false ∧
    (∀ k, k < rmin M → check (familyEnc M d) k = false) ∧
    syndrome (rmin M) (familyEnc M d) = 0 ∧
    extract M (familyEnc M d) = d) ∧
  (∀ d : Data, encWord d = familyEnc 8 d)

/-- O15.  For every payload width, two distinct payloads have codewords that differ in at least four positions
(rule R61). -/
def Obligations.CodewordsAreFarApart : Prop :=
  ∀ (M : Nat) (a b : BitVec M), a ≠ b →
    4 ≤ (List.range (cwWidth M)).countP
      (fun j => (familyEnc M a).getLsbD j != (familyEnc M b).getLsbD j)

/-! ## DEC -/

/-- O16.  The three signals and the extraction at `N = 13` in closed form (rule R75). -/
def Obligations.DecSignals : Prop :=
  ∀ w : Codeword,
    overallParity w = (w.getLsbD 0 ^^ w.getLsbD 1 ^^ w.getLsbD 2 ^^ w.getLsbD 3 ^^ w.getLsbD 4 ^^ w.getLsbD 5 ^^
      w.getLsbD 6 ^^ w.getLsbD 7 ^^ w.getLsbD 8 ^^ w.getLsbD 9 ^^ w.getLsbD 10 ^^ w.getLsbD 11 ^^ w.getLsbD 12) ∧
    check w 0 = (w.getLsbD 1 ^^ w.getLsbD 3 ^^ w.getLsbD 5 ^^ w.getLsbD 7 ^^ w.getLsbD 9 ^^ w.getLsbD 11) ∧
    check w 1 = (w.getLsbD 2 ^^ w.getLsbD 3 ^^ w.getLsbD 6 ^^ w.getLsbD 7 ^^ w.getLsbD 10 ^^ w.getLsbD 11) ∧
    check w 2 = (w.getLsbD 4 ^^ w.getLsbD 5 ^^ w.getLsbD 6 ^^ w.getLsbD 7 ^^ w.getLsbD 12) ∧
    check w 3 = (w.getLsbD 8 ^^ w.getLsbD 9 ^^ w.getLsbD 10 ^^ w.getLsbD 11 ^^ w.getLsbD 12) ∧
    syndrome 4 w = (check w 0).toNat + 2 * (check w 1).toNat + 4 * (check w 2).toNat + 8 * (check w 3).toNat ∧
    (∀ i, i < 8 → (extract 8 w).getLsbD i = w.getLsbD ([3, 5, 6, 7, 9, 10, 11, 12].getD i 0))

/-- O17.  `DEC` completes on every one of the 8192 words in every state, with the port values of rule R47 for its class.
The codes of the classes are decision D5, the zeros where a result has no field D6, and the OneError at a position the
word does not have D7 (log entry 1). -/
def Obligations.DecCompletesWithItsClass : Prop :=
  ∀ (w : Codeword) (s : State), ∃ t, exec (.dec w) s = .next t ∧ t.decCw = w ∧
    (overallParity w = false → syndrome 4 w = 0 →
      t.decOut.status = 0#2 ∧ t.decOut.pos = 0#4 ∧ t.decOut.data = extract 8 w ∧ t.decOut.cwFixed = w) ∧
    (overallParity w = true →
      t.decOut.status = 1#2 ∧ t.decOut.pos.toNat = syndrome 4 w ∧
      (∀ k, k < 4 → t.decOut.pos.getLsbD k = check w k) ∧
      t.decOut.data = extract 8 t.decOut.cwFixed ∧
      (syndrome 4 w < 13 → ∀ j, j < 13 →
        t.decOut.cwFixed.getLsbD j = if j = syndrome 4 w then !w.getLsbD j else w.getLsbD j) ∧
      (13 ≤ syndrome 4 w → t.decOut.cwFixed = w)) ∧
    (overallParity w = false → syndrome 4 w ≠ 0 →
      t.decOut.status = 2#2 ∧ t.decOut.pos = 0#4 ∧ t.decOut.data = 0#8 ∧ t.decOut.cwFixed = w)

/-- O18.  `DEC` changes its own ports and nothing else: not the encoder's wires, not the array, not a bit of any disk
(rules R10, R15, R16, R20); its input port carries the word that was driven. -/
def Obligations.DecFrame : Prop :=
  ∀ (w : Codeword) (s t : State), exec (.dec w) s = .next t →
    t.decCw = w ∧ t.encData = s.encData ∧ t.encCw = s.encCw ∧ t.array = s.array ∧ t.reply = s.reply ∧
    t.requests = s.requests ∧
    ∀ j o, diskRead t.array.disks j o = diskRead s.array.disks j o

/-- O19.  The result class is the table of rule R66, for every width: there is a result for every word, and each class
comes exactly on its row; under `OOR_POLICY = fault` too, where there is a result (rule R72). -/
def Obligations.ClassificationTable : Prop :=
  ∀ (M R N : Nat) (w : BitVec N),
    (∃ r fixed, decodeAt .reportNoFlip M R w = some (r, fixed)) ∧
    ∀ (pol : OorPolicy) (r : DecResult M) (fixed : BitVec N), decodeAt pol M R w = some (r, fixed) →
      (resultClass r = .noError ↔ overallParity w = false ∧ syndrome R w = 0) ∧
      (resultClass r = .oneError ↔ overallParity w = true) ∧
      (resultClass r = .doubleError ↔ overallParity w = false ∧ syndrome R w ≠ 0)

/-- O20.  NoError returns the bits at the payload positions and leaves the word unchanged (rule R67), for every width and
policy. -/
def Obligations.NoErrorReturnsThePayload : Prop :=
  ∀ (pol : OorPolicy) (M R N : Nat) (w : BitVec N), overallParity w = false → syndrome R w = 0 →
    ∃ p : BitVec M, decodeAt pol M R w = some (.noError p, w) ∧
      ∀ i, i < M → p.getLsbD i = w.getLsbD (dpos i)

/-- O21.  OneError at `e = syn < N` flips position `e`, and only then extracts; where `e` is 0 or a power of two the
payload is that of the word as it came, and at `e = 0` the fix toggles position 0 alone (rules R68, R69).  The sentence on
the payload at 0 and the powers of two is the spec's own derivation (R68, from R42).  For every width and policy. -/
def Obligations.OneErrorFlipsThenExtracts : Prop :=
  ∀ (pol : OorPolicy) (M R N : Nat) (w : BitVec N), overallParity w = true → syndrome R w < N →
    ∃ (p : BitVec M) (w' : BitVec N), decodeAt pol M R w = some (.oneError p (syndrome R w), w') ∧
      (∀ j, j < N → w'.getLsbD j = if j = syndrome R w then !w.getLsbD j else w.getLsbD j) ∧
      (∀ i, i < M → p.getLsbD i = w'.getLsbD (dpos i)) ∧
      (isPayload (syndrome R w) = false → p = extract M w)

/-- O22.  The two values of `OOR_POLICY`: under `fault` exactly the words of odd parity whose syndrome names no position
get no result, and every other word gets the same result as under `report_no_flip`; the model runs `report_no_flip`,
which reports the position, flips nothing and extracts from the unchanged word (rule R72, decision D7; the model's
choice of the default is log entry 1). -/
def Obligations.SyndromeBeyondTheWord : Prop :=
  ∀ (w : Codeword) (s : State),
    (overallParity w = true ∧ 13 ≤ syndrome 4 w →
      execDecWith .fault w s = .fault .syndromeNamesNoPosition ∧
      ∃ t, exec (.dec w) s = .next t ∧ t.decOut.status = 1#2 ∧ t.decOut.pos.toNat = syndrome 4 w ∧
        t.decOut.data = extract 8 w ∧ t.decOut.cwFixed = w) ∧
    (¬ (overallParity w = true ∧ 13 ≤ syndrome 4 w) →
      ∃ t, execDecWith .fault w s = .next t ∧ exec (.dec w) s = .next t)

/-- O23.  The outputs are a function of the input alone, whatever was evaluated before, and evaluating again with the same
input changes nothing (rules R10, R28). -/
def Obligations.BlocksHaveNoHistory : Prop :=
  (∀ (d : Data) (s s' : State), ∃ t t', exec (.enc d) s = .next t ∧ exec (.enc d) s' = .next t' ∧
    t.encCw = t'.encCw ∧ exec (.enc d) t = .next t) ∧
  (∀ (w : Codeword) (s s' : State), ∃ t t', exec (.dec w) s = .next t ∧ exec (.dec w) s' = .next t' ∧
    t.decOut = t'.decOut ∧ exec (.dec w) t = .next t)

/-! ## What the code guarantees -/

/-- O24.  For every payload width: the XOR of all bits of a codeword with the positions of `E` flipped is the parity of
the number of flips, and its syndrome is the XOR of the flipped positions (rule R74, facts (i) and (ii)). -/
def Obligations.SyndromeOfFlips : Prop :=
  ∀ (M : Nat) (d : BitVec M) (E : List Nat), (∀ p ∈ E, p < cwWidth M) →
    overallParity (flipAll (familyEnc M d) E) = (E.length % 2 == 1) ∧
    syndrome (rmin M) (flipAll (familyEnc M d) E) = E.foldl (· ^^^ ·) 0

/-- O25.  Round trip, at the ports: what `ENC` puts on `enc_cw`, driven on `dec_cw`, is NoError with the payload it was
given, under either policy (rules R57, R74).  The port code and the zero position are decisions D5 and D6. -/
def Obligations.RoundTrip : Prop :=
  ∀ (d : Data) (s : State), ∃ t u, exec (.enc d) s = .next t ∧ exec (.dec t.encCw) t = .next u ∧
    (∀ pol, execDecWith pol t.encCw t = .next u) ∧
    u.decOut.status = 0#2 ∧ u.decOut.pos = 0#4 ∧ u.decOut.data = d ∧ u.decOut.cwFixed = t.encCw

/-- O26.  Single-error correction, at the ports: any one of the 13 positions of a codeword flipped, position 0 included,
gives OneError at that position with the payload and the codeword restored, under either policy (rules R68, R69, R74).
Premise: one flip (rule R73).  The port code is decision D5. -/
def Obligations.SingleErrorIsCorrected : Prop :=
  ∀ (d : Data) (p : Nat) (s : State), p < 13 →
    ∃ t u, exec (.enc d) s = .next t ∧ exec (.dec (flipBit t.encCw p)) t = .next u ∧
      (∀ pol, execDecWith pol (flipBit t.encCw p) t = .next u) ∧
      u.decOut.status = 1#2 ∧ u.decOut.pos.toNat = p ∧ u.decOut.data = d ∧ u.decOut.cwFixed = t.encCw

/-- O27.  Double-error detection, at the ports: any two distinct positions of a codeword flipped give DoubleError, the
word unchanged and no payload, under either policy (rules R70, R74).  Premise: two flips (rule R73).  The port code and
the zero fills are decisions D5 and D6. -/
def Obligations.DoubleErrorIsDetected : Prop :=
  ∀ (d : Data) (p q : Nat) (s : State), p < 13 → q < 13 → p ≠ q →
    ∃ t u, exec (.enc d) s = .next t ∧ exec (.dec (flipBit (flipBit t.encCw p) q)) t = .next u ∧
      (∀ pol, execDecWith pol (flipBit (flipBit t.encCw p) q) t = .next u) ∧
      u.decOut.status = 2#2 ∧ u.decOut.pos = 0#4 ∧ u.decOut.data = 0#8 ∧
      u.decOut.cwFixed = flipBit (flipBit t.encCw p) q

/-- O28.  The three guarantees for every payload width and either policy (rule R74). -/
def Obligations.GuaranteesForEveryWidth : Prop :=
  ∀ (pol : OorPolicy) (M : Nat) (d : BitVec M),
    familyDec pol M (familyEnc M d) = some (.noError d, familyEnc M d) ∧
    (∀ p, p < cwWidth M →
      familyDec pol M (flipBit (familyEnc M d) p) = some (.oneError d p, familyEnc M d)) ∧
    (∀ p q, p < cwWidth M → q < cwWidth M → p ≠ q →
      familyDec pol M (flipBit (flipBit (familyEnc M d) p) q)
        = some (.doubleError, flipBit (flipBit (familyEnc M d) p) q))

/-- O29.  On a contract input every policy gives the same result, so no claim about contract inputs rests on the choice of
log entry 1 (rules R62, R72, R74). -/
def Obligations.ContractInputsNeedNoPolicy : Prop :=
  ∀ w : Codeword, ContractInput w →
    ∃ r, (∀ pol, decWord pol w = some r) ∧ (overallParity w = true → syndrome 4 w < 13)

/-- O30.  An odd number of flips is always classed OneError at the XOR of the flipped positions, and an even, non-zero
number NoError with a wrong payload when that XOR is 0 and DoubleError otherwise (rule R73; outside the contract for
three or more).  Where the XOR of an odd number is 13 or more, the OneError rests on `OOR_POLICY = report_no_flip` (rule
R72, decision D7, log entry 1). -/
def Obligations.ManyFlips : Prop :=
  ∀ (d : Data) (E : List Nat) (s : State), E.Nodup → (∀ p ∈ E, p < 13) → E ≠ [] →
    ∃ t, exec (.dec (flipAll (encWord d) E)) s = .next t ∧
      (E.length % 2 = 1 → t.decOut.status = 1#2 ∧ t.decOut.pos.toNat = E.foldl (· ^^^ ·) 0) ∧
      (E.length % 2 = 0 → E.foldl (· ^^^ ·) 0 = 0 → t.decOut.status = 0#2 ∧ t.decOut.data ≠ d) ∧
      (E.length % 2 = 0 → E.foldl (· ^^^ ·) 0 ≠ 0 → t.decOut.status = 2#2)

/-- O31.  Three flips whose syndrome names a position are miscorrected: the position reported is none of the three, and
the "fixed" word is a codeword of another payload, which is what `dec_data` carries (rules R73, R118). -/
def Obligations.ThreeFlipsAreMiscorrected : Prop :=
  ∀ (d : Data) (p q r : Nat) (s : State), p < 13 → q < 13 → r < 13 → p ≠ q → p ≠ r → q ≠ r →
    p ^^^ q ^^^ r < 13 →
    ∃ t d', exec (.dec (flipBit (flipBit (flipBit (encWord d) p) q) r)) s = .next t ∧
      t.decOut.status = 1#2 ∧ t.decOut.pos.toNat = p ^^^ q ^^^ r ∧
      p ^^^ q ^^^ r ≠ p ∧ p ^^^ q ^^^ r ≠ q ∧ p ^^^ q ^^^ r ≠ r ∧
      d' ≠ d ∧ t.decOut.cwFixed = encWord d' ∧ t.decOut.data = d'

/-- O32.  Decoding the corrected word gives NoError with the same payload, inside the contract or not; NoError and
DoubleError leave the word and decode again to the same outputs (rule R76). -/
def Obligations.CorrectedWordDecodesClean : Prop :=
  ∀ (w : Codeword) (s : State), ∃ t u, exec (.dec w) s = .next t ∧ exec (.dec t.decOut.cwFixed) t = .next u ∧
    (overallParity w = true → syndrome 4 w < 13 →
      u.decOut.status = 0#2 ∧ u.decOut.data = t.decOut.data ∧ u.decOut.cwFixed = t.decOut.cwFixed) ∧
    (overallParity w = false → t.decOut.cwFixed = w ∧ u = t)

/-- O33.  The 8192 words fall into the four groups of rule R51: the codewords, the words one flip away, the words two
flips away, and those of odd parity whose syndrome names no position, which are no contract inputs. -/
def Obligations.WordsFallIntoFourGroups : Prop :=
  ∀ w : Codeword,
    ((overallParity w = false ∧ syndrome 4 w = 0) ↔ ∃ d, w = encWord d) ∧
    ((overallParity w = true ∧ syndrome 4 w < 13) ↔ ∃ d p, p < 13 ∧ w = flipBit (encWord d) p) ∧
    ((overallParity w = false ∧ syndrome 4 w ≠ 0) ↔
      ∃ d p q, p < 13 ∧ q < 13 ∧ p ≠ q ∧ w = flipBit (flipBit (encWord d) p) q) ∧
    ((overallParity w = true ∧ 13 ≤ syndrome 4 w) ↔ ¬ ContractInput w)

/-! ## Bytes, bits and the pseudo-operations -/

/-- O34.  A byte becomes 8 data bits most significant bit first, and a sequence of bytes the concatenation of their groups
(rule R23). -/
def Obligations.BytesBecomeBits : Prop :=
  (∀ (b : Byte) (i : Nat), i < 8 → (bitsOfByte b).getLsbD i = decide (b.toNat / 2 ^ (7 - i) % 2 = 1)) ∧
  (∀ (b : Byte) (bs : List Byte), bitsOfBytes (b :: bs) = bitsOfWord (bitsOfByte b) ++ bitsOfBytes bs) ∧
  bitsOfBytes [] = [] ∧
  bitsOfWord (bitsOfByte 0x48#8) = [false, true, false, false, true, false, false, false]

/-- O35.  Bytes to bits and back is the identity on bytes and on byte sequences, and back to bits on data words; a bit
sequence whose length is not a multiple of 8 gives no bytes (rule R24; that it gives none is the model's reading of
spec/93_implementation_defined.md U6, log entry 13). -/
def Obligations.BytesRoundTrip : Prop :=
  (∀ b : Byte, byteOfBits (bitsOfByte b) = b) ∧
  (∀ d : Data, bitsOfByte (byteOfBits d) = d) ∧
  (∀ bs : List Byte, bytesOfBits (bitsOfBytes bs) = some bs) ∧
  (∀ bits : BitSeq, bytesOfBits bits = none ↔ bits.length % 8 ≠ 0)

/-- O36.  `ENCB` then `DECB` returns the byte, with no flip or with one; with two flips there is no byte
(rules R53, R74, R119; the reply for no byte is log entry 12).  Premise: at most two flips. -/
def Obligations.ByteOperations : Prop :=
  ∀ (b : Byte) (s : State), ∃ t, runRequest (.encb b) s = .next t ∧ t.encCw = encWord (bitsOfByte b) ∧
    (∃ u, runRequest (.decb t.encCw) t = .next u ∧ u.reply = some (.byte b)) ∧
    (∀ p, p < 13 → ∃ u, runRequest (.decb (flipBit t.encCw p)) t = .next u ∧ u.reply = some (.byte b)) ∧
    (∀ p q, p < 13 → q < 13 → p ≠ q →
      ∃ u, runRequest (.decb (flipBit (flipBit t.encCw p) q)) t = .next u ∧ u.reply = some .noByte)

/-- O37.  `FLIP` complements exactly the named position and touches neither block; a position the word does not have is
refused (rules R8, R52). -/
def Obligations.FlipRequest : Prop :=
  ∀ (w : Codeword) (p : Nat) (s : State),
    (p < 13 → ∃ w', runRequest (.flip w p) s = .next (s.withReply (.flipped w')) ∧
      ∀ j, j < 13 → w'.getLsbD j = if j = p then !w.getLsbD j else w.getLsbD j) ∧
    (13 ≤ p → runRequest (.flip w p) s = .refused (.flipOutOfRange p))

/-- O38.  Text: a word's bit string reads back as its bits, so the text form loses nothing (rules R6, R26; the form is
decision D12). -/
def Obligations.TextRoundTrip : Prop :=
  (∀ bits : BitSeq, bitsOfText (textOfBits bits) = some bits) ∧
  (∀ (t : String) (bits : BitSeq), bitsOfText t = some bits → textOfBits bits = t)

/-! ## The disk array -/

/-- O39.  Construction leaves 13 empty disks, all of `13 * disk_size` free, and an empty directory, and does not touch the
blocks (rules R79, R80, R114). -/
def Obligations.Construction : Prop :=
  ∀ (n : Nat) (s : State), ∃ t, runRequest (.construct n) s = .next t ∧
    t.array.disks.length = 13 ∧ (∀ d ∈ t.array.disks, d = []) ∧
    t.array.totalCapacity = 13 * n ∧ t.array.freeSpace = 13 * n ∧ t.array.directory = [] ∧
    t.encData = s.encData ∧ t.encCw = s.encCw ∧ t.decCw = s.decCw ∧ t.decOut = s.decOut ∧
    t.requests = s.requests

/-- O40.  `write_file` proceeds only when the free space is strictly greater than the number of bytes; otherwise nothing
is mutated.  So after construction with `n` the largest single write is `13 * n - 1` bytes (rule R85).  That a write under
a name already taken succeeds too rests on `DUP_NAME_POLICY = first_match` (rule R88, decision D17, log entry 2). -/
def Obligations.WriteNeedsMoreSpaceThanBytes : Prop :=
  ∀ (data : List Byte) (kind : FileKind) (name : String) (s : State),
    (data.length < s.array.freeSpace →
      ∃ t, runRequest (.writeFile data kind name) s = .next t ∧ t.reply = some .written) ∧
    (s.array.freeSpace ≤ data.length →
      runRequest (.writeFile data kind name) s = .next (s.withReply .notEnoughSpace)) ∧
    (∀ (n : Nat) (u : State), runRequest (.construct n) s = .next u →
      ((∃ t, runRequest (.writeFile data kind name) u = .next t ∧ t.reply = some .written) ↔
        data.length < 13 * n))

/-- O41.  A successful write stripes its bytes: bit `j` of the codeword of byte `k` is appended to disk `j`, what was
stored before stays, every disk grows by one bit per byte, and the record of the new byte range is added at the end of
the directory while the free space falls by the number of bytes (rules R86, R87; the amount is the spec's derivation, log
entry 10).  That a record is added under a name already taken too rests on `DUP_NAME_POLICY = first_match` (rule R88,
decision D17, log entry 2). -/
def Obligations.WriteStripesAndRegisters : Prop :=
  ∀ (data : List Byte) (kind : FileKind) (name : String) (s : State),
    s.array.disks.wf = true → data.length < s.array.freeSpace →
    ∃ t, runRequest (.writeFile data kind name) s = .next t ∧
      t.array.disks.wf = true ∧
      usedBytes t.array.disks = usedBytes s.array.disks + data.length ∧
      (∀ j o, o < usedBytes s.array.disks → diskRead t.array.disks j o = diskRead s.array.disks j o) ∧
      (∀ j k b, j < 13 → data[k]? = some b →
        diskRead t.array.disks j (usedBytes s.array.disks + k)
          = some ((encWord (bitsOfByte b)).getLsbD j)) ∧
      t.array.directory = s.array.directory ++
        [{ name := name, startPos := usedBytes s.array.disks,
           endPos := usedBytes s.array.disks + data.length, size := data.length, kind := kind }] ∧
      t.array.freeSpace + data.length = s.array.freeSpace ∧
      t.array.totalCapacity = s.array.totalCapacity ∧
      t.decCw = s.decCw ∧ t.decOut = s.decOut ∧ t.requests = s.requests

/-- O42.  `read_file` looks the record up by name: where no record has the name it returns `NotFound` and nothing is
mutated, and where one has it what it returns is `DisksCorrupted` or `Success` (rule R89). -/
def Obligations.ReadLooksUpByName : Prop :=
  ∀ (name : String) (s : State),
    ((∀ r ∈ s.array.directory, r.name ≠ name) →
      runRequest (.readFile name) s = .next (s.withReply .notFound)) ∧
    (∀ r t, r ∈ s.array.directory → r.name = name → runRequest (.readFile name) s = .next t →
      t.reply = some .disksCorrupted ∨ ∃ kind bytes, t.reply = some (.contents kind bytes))

/-- O43.  A lookup under `first_match` returns the earliest record of the name, under `last write shadows` the latest, and
where duplicates are rejected the earliest, the only one such an array holds (rule R88; the default is log entry 2). -/
def Obligations.LookupPolicies : Prop :=
  ∀ (before after : List FileRecord) (r : FileRecord),
    ((∀ q ∈ before, q.name ≠ r.name) → lookup .firstMatch (before ++ r :: after) r.name = some r) ∧
    ((∀ q ∈ before, q.name ≠ r.name) → lookup .rejectDuplicates (before ++ r :: after) r.name = some r) ∧
    ((∀ q ∈ after, q.name ≠ r.name) → lookup .lastShadows (before ++ r :: after) r.name = some r)

/-- O44.  What a read leaves alone: the encoder's wires, the counters, the directory, the length of every disk and every
bit outside the record's byte range; and inside it, at an offset whose 13 bits gather to `w`, only the bit of disk
`syndrome 4 w` may differ, and only where `w` has odd parity (rules R82, R91, R92). -/
def Obligations.ReadFrame : Prop :=
  ∀ (name : String) (s t : State), runRequest (.readFile name) s = .next t →
    t.encData = s.encData ∧ t.encCw = s.encCw ∧ t.requests = s.requests ∧
    t.array.totalCapacity = s.array.totalCapacity ∧ t.array.freeSpace = s.array.freeSpace ∧
    t.array.directory = s.array.directory ∧
    t.array.disks.map List.length = s.array.disks.map List.length ∧
    (∀ j o, (∀ r, lookup Config.dupNamePolicy s.array.directory name = some r →
        ¬ (r.startPos ≤ o ∧ o < r.endPos)) →
      diskRead t.array.disks j o = diskRead s.array.disks j o) ∧
    (∀ j o, diskRead t.array.disks j o ≠ diskRead s.array.disks j o →
      ∃ w, gather s.array.disks o = some w ∧ overallParity w = true ∧ j = syndrome 4 w)

/-- O45.  `corrupt_disk(n)` with `1 <= n <= 13` complements every bit of disk `n - 1` and no other bit, and returns true;
any other number changes nothing and returns false; the same disk corrupted twice is restored (rules R93, R95). -/
def Obligations.CorruptDisk : Prop :=
  ∀ (n : Nat) (s : State),
    (1 ≤ n → n ≤ 13 → ∃ t, runRequest (.corruptDisk n) s = .next t ∧ t.reply = some (.inRange true) ∧
      (∀ o, diskRead t.array.disks (n - 1) o = (diskRead s.array.disks (n - 1) o).map (fun b => !b)) ∧
      (∀ j o, j ≠ n - 1 → diskRead t.array.disks j o = diskRead s.array.disks j o) ∧
      t.array.totalCapacity = s.array.totalCapacity ∧ t.array.freeSpace = s.array.freeSpace ∧
      t.array.directory = s.array.directory ∧
      t.encData = s.encData ∧ t.encCw = s.encCw ∧ t.decCw = s.decCw ∧ t.decOut = s.decOut ∧
      t.requests = s.requests ∧
      ∃ u, runRequest (.corruptDisk n) t = .next u ∧ u.array = s.array) ∧
    (¬ (1 ≤ n ∧ n ≤ 13) → runRequest (.corruptDisk n) s = .next (s.withReply (.inRange false)))

/-- O46.  Stored bits change only by a repair or by fault injection: where a step leaves a stored bit different, its
request was `read_file` or `corrupt_disk`, or a new array was constructed (rule R84; construction is log entry 7). -/
def Obligations.StoredBitsChangeOnlyByRepairOrInjection : Prop :=
  ∀ (s t : State) (j o : Nat) (b : Bool), step s = .next t →
    diskRead s.array.disks j o = some b → diskRead t.array.disks j o ≠ some b →
    ∃ rest, (∃ name, s.requests = .readFile name :: rest) ∨ (∃ n, s.requests = .corruptDisk n :: rest) ∨
      (∃ n, s.requests = .construct n :: rest)

/-- O47.  Scenario A for every file: in every state of the invariant with room for it, a file written under a new name
reads back with its bytes, and the read changes nothing of the array (rules R86 to R92). -/
def Obligations.WrittenFileReadsBack : Prop :=
  ∀ (s : State) (data : List Byte) (kind : FileKind) (name : String), StateInv s →
    data.length < s.array.freeSpace → (∀ r ∈ s.array.directory, r.name ≠ name) →
    ∃ t u, runRequest (.writeFile data kind name) s = .next t ∧ runRequest (.readFile name) t = .next u ∧
      u.reply = some (.contents kind data) ∧ u.array = t.array

/-- O48.  Scenario B for every file and every disk: with one disk corrupted after the write, the read returns the bytes
written and restores every stored bit of the file; a second read returns them again and repairs nothing
(rules R91, R93, R95). -/
def Obligations.OneCorruptedDiskHeals : Prop :=
  ∀ (s : State) (data : List Byte) (kind : FileKind) (name : String) (n : Nat), StateInv s →
    data.length < s.array.freeSpace → (∀ r ∈ s.array.directory, r.name ≠ name) → 1 ≤ n → n ≤ 13 →
    ∃ t u v x, runRequest (.writeFile data kind name) s = .next t ∧
      runRequest (.corruptDisk n) t = .next u ∧
      runRequest (.readFile name) u = .next v ∧ v.reply = some (.contents kind data) ∧
      (∀ j o, usedBytes s.array.disks ≤ o → diskRead v.array.disks j o = diskRead t.array.disks j o) ∧
      runRequest (.readFile name) v = .next x ∧ x.reply = some (.contents kind data) ∧ x.array = v.array

/-- O49.  Scenario C for every file and every two distinct disks: the read of a non-empty file is `DisksCorrupted` and
changes nothing of the array; an empty file reads as no bytes (rules R92, R95). -/
def Obligations.TwoCorruptedDisksAbortTheRead : Prop :=
  ∀ (s : State) (data : List Byte) (kind : FileKind) (name : String) (m n : Nat), StateInv s →
    data.length < s.array.freeSpace → (∀ r ∈ s.array.directory, r.name ≠ name) →
    1 ≤ m → m ≤ 13 → 1 ≤ n → n ≤ 13 → m ≠ n →
    ∃ t u v x, runRequest (.writeFile data kind name) s = .next t ∧
      runRequest (.corruptDisk m) t = .next u ∧ runRequest (.corruptDisk n) u = .next v ∧
      runRequest (.readFile name) v = .next x ∧ x.array = v.array ∧
      (data ≠ [] → x.reply = some .disksCorrupted) ∧ (data = [] → x.reply = some (.contents kind []))

/-- O50.  Repairs persist, whatever the disks held: where a read succeeds, reading again returns the same bytes and
changes nothing of the array (rules R76, R91). -/
def Obligations.RepairsPersist : Prop :=
  ∀ (s t : State) (name : String) (kind : FileKind) (bytes : List Byte), StateInv s →
    runRequest (.readFile name) s = .next t → t.reply = some (.contents kind bytes) →
    ∃ u, runRequest (.readFile name) t = .next u ∧ u.reply = some (.contents kind bytes) ∧ u.array = t.array

/-- O51.  Where every stored word of the file is a contract input, the read completes, with `Success` exactly when none
of them is two flips from a codeword; what it then returns is byte for byte that of the payload `DEC` gives for the stored
word (rules R62, R91, R92). -/
def Obligations.ReadOfContractWordsCompletes : Prop :=
  ∀ (s : State) (name : String) (r : FileRecord), StateInv s →
    lookup Config.dupNamePolicy s.array.directory name = some r →
    (∀ o, r.startPos ≤ o → o < r.endPos → ∃ w, gather s.array.disks o = some w ∧ ContractInput w) →
    ∃ t, runRequest (.readFile name) s = .next t ∧
      (t.reply = some .disksCorrupted ∨ ∃ bytes, t.reply = some (.contents r.kind bytes) ∧ bytes.length = r.size ∧
        ∀ k, k < r.size → ∃ w p, gather s.array.disks (r.startPos + k) = some w ∧
          decPorts Config.oorPolicy w = some p ∧ bytes[k]? = some (byteOfBits p.data)) ∧
      (t.reply = some .disksCorrupted ↔
        ∃ o w, r.startPos ≤ o ∧ o < r.endPos ∧ gather s.array.disks o = some w ∧
          overallParity w = false ∧ syndrome 4 w ≠ 0)

/-! ## The whole machine -/

/-- O52.  The machine starts in the invariant, with the array as constructed and nothing requested or returned
(rules R80, R114; the zero words on the inputs are log entry 6). -/
def Obligations.ResetSatisfiesTheInvariant : Prop :=
  StateInv State.reset ∧ State.reset.array = constructArray Config.diskSize ∧
    State.reset.reply = none ∧ State.reset.requests = []

/-- O53.  Every step keeps the invariant: the outputs follow the inputs (rules R14, R15), the 13 disks stay of one
length (rule R81), the counters count the bytes written (rules R85, R87, R97) and every record's range lies in what was
written (rule R82). -/
def Obligations.StepKeepsTheInvariant : Prop :=
  ∀ s t : State, StateInv s → step s = .next t → StateInv t

/-- O54.  From a state of the invariant a step stops in three ways only: a read whose decoder names a disk that does not
exist (rule R122, U15), a word of the wrong width (rule R27), and a flip outside the word (rule R8).  The read stops exactly
when it comes to such a word, every word before it in the range being readable (log entry 11). -/
def Obligations.TheOnlyStops : Prop :=
  ∀ s : State, StateInv s →
    (∀ f, step s = .fault f → f = .positionNamesNoDisk) ∧
    (step s = .fault .positionNamesNoDisk ↔
      ∃ name rest r o w, s.requests = .readFile name :: rest ∧
        lookup Config.dupNamePolicy s.array.directory name = some r ∧ r.startPos ≤ o ∧ o < r.endPos ∧
        gather s.array.disks o = some w ∧ overallParity w = true ∧ 13 ≤ syndrome 4 w ∧
        ∀ k, r.startPos ≤ k → k < o → ∃ v, gather s.array.disks k = some v ∧ ByteReadable v) ∧
    (∀ q, step s = .refused q → ∃ r rest, s.requests = r :: rest ∧ r.wellFormed = false) ∧
    (∀ r rest, s.requests = r :: rest → r.wellFormed = false → ∃ q, step s = .refused q)

/-! ## More on the disk array -/

/-- O55.  A read that aborts keeps the repairs it has made: it went as far as a word of even parity and a syndrome that is
not 0, every word before that in the range is left as `dec_cw_fixed` gives it, and every other stored bit is as it was
(rules R91, R92, R105; that repairs stay is the spec's derivation in R91).  That every word before it is `ByteReadable`,
with no OneError at 13 to 15 among them, rests on the model's stop at such a word (rule R122, U15, log entry 11). -/
def Obligations.AbortedReadKeepsItsRepairs : Prop :=
  ∀ (s t : State) (name : String), StateInv s → runRequest (.readFile name) s = .next t →
    t.reply = some .disksCorrupted →
    ∃ r a w, lookup Config.dupNamePolicy s.array.directory name = some r ∧ r.startPos ≤ a ∧ a < r.endPos ∧
      gather s.array.disks a = some w ∧ overallParity w = false ∧ syndrome 4 w ≠ 0 ∧
      (∀ o, r.startPos ≤ o → o < a → ∃ v p, gather s.array.disks o = some v ∧ ByteReadable v ∧
        decPorts Config.oorPolicy v = some p ∧ gather t.array.disks o = some p.cwFixed) ∧
      (∀ j o, ¬ (r.startPos ≤ o ∧ o < a) → diskRead t.array.disks j o = diskRead s.array.disks j o)

/-- O56.  What a successful read returns, whatever the disks held: the record's kind, and for every offset of the range in
order the byte of the payload `DEC` gives for the 13 bits stored there, which are left as `dec_cw_fixed` gives them
(rules R90, R91, R92).  That every word of the range is `ByteReadable`, with no OneError at 13 to 15 among them, rests on
the model's stop at such a word (rule R122, U15, log entry 11). -/
def Obligations.SuccessfulReadReturnsWhatItDecodes : Prop :=
  ∀ (s t : State) (name : String) (kind : FileKind) (bytes : List Byte), StateInv s →
    runRequest (.readFile name) s = .next t → t.reply = some (.contents kind bytes) →
    ∃ r, lookup Config.dupNamePolicy s.array.directory name = some r ∧ kind = r.kind ∧ bytes.length = r.size ∧
      (∀ k, k < r.size → ∃ w p, gather s.array.disks (r.startPos + k) = some w ∧ ByteReadable w ∧
        decPorts Config.oorPolicy w = some p ∧ bytes[k]? = some (byteOfBits p.data) ∧
        gather t.array.disks (r.startPos + k) = some p.cwFixed) ∧
      (∀ j o, ¬ (r.startPos ≤ o ∧ o < r.endPos) → diskRead t.array.disks j o = diskRead s.array.disks j o)

/-- O57.  The three values of `DUP_NAME_POLICY` in `write_file` (rule R88).  Without room every value answers
`NotEnoughSpace`; with room, rejection answers `duplicateName` and changes nothing else where the name is taken, and
otherwise, like both storing values in every case, writes as `first_match` does.  That the capacity check comes first, and
the reply's name, are the model's choice (log entry 2). -/
def Obligations.WritePolicies : Prop :=
  ∀ (data : List Byte) (kind : FileKind) (name : String) (s : State),
    (s.array.freeSpace ≤ data.length → ∀ dup,
      writeFileWith dup data kind name s = .next (s.withReply .notEnoughSpace)) ∧
    (data.length < s.array.freeSpace → (∃ r ∈ s.array.directory, r.name = name) →
      writeFileWith .rejectDuplicates data kind name s = .next (s.withReply .duplicateName)) ∧
    (data.length < s.array.freeSpace → (∀ r ∈ s.array.directory, r.name ≠ name) →
      writeFileWith .rejectDuplicates data kind name s = writeFileWith .firstMatch data kind name s) ∧
    writeFileWith .lastShadows data kind name s = writeFileWith .firstMatch data kind name s ∧
    (data.length < s.array.freeSpace →
      ∃ t, writeFileWith .firstMatch data kind name s = .next t ∧ t.reply = some .written)
end

