-- ==== Sys2Proof/Laws/Words.lean ====
section
/-!
SUPPORT. Bit-by-bit lemmas of the word operations: `wordOf`, `flipBit`, `setBit`, `xorOver`, and the signals of a decode.
-/

namespace Sys2Proof

@[simp] theorem getLsbD_wordOf (n : Nat) (f : Nat → Bool) (i : Nat) :
    (wordOf n f).getLsbD i = (decide (i < n) && f i) := by
  induction n with
  | zero => simp [wordOf]
  | succ n ih =>
    rw [wordOf, BitVec.getLsbD_cons, ih]
    by_cases h : i = n
    · simp [h]
    · have : (i < n + 1) ↔ (i < n) := by omega
      simp [h, this]

@[simp] theorem getElem_wordOf (n : Nat) (f : Nat → Bool) (i : Nat) (hi : i < n) : (wordOf n f)[i] = f i := by
  rw [← BitVec.getLsbD_eq_getElem, getLsbD_wordOf]; simp [hi]

theorem wordOf_getLsbD {n : Nat} (w : BitVec n) : wordOf n (fun i => w.getLsbD i) = w := by
  apply BitVec.eq_of_getLsbD_eq
  intro i hi
  simp [hi]

@[simp] theorem length_bitsOfWord {n : Nat} (w : BitVec n) : (bitsOfWord w).length = n := by
  simp [bitsOfWord]

theorem getD_bitsOfWord {n : Nat} (w : BitVec n) (i : Nat) (hi : i < n) :
    (bitsOfWord w).getD i false = w.getLsbD i := by
  simp [bitsOfWord, List.getD, hi]

@[simp] theorem wordOfBits_bitsOfWord {n : Nat} (w : BitVec n) : wordOfBits n (bitsOfWord w) = w := by
  apply BitVec.eq_of_getLsbD_eq
  intro i hi
  rw [wordOfBits, getLsbD_wordOf, getD_bitsOfWord w i hi]
  simp [hi]

end Sys2Proof

namespace Sys2Proof.Machine

variable {N : Nat}

/-! ### `flipBit` and `setBit` -/

@[simp] theorem getLsbD_flipBit (w : BitVec N) (p i : Nat) :
    (flipBit w p).getLsbD i = (w.getLsbD i ^^ (decide (i < N) && decide (p = i))) := by
  rw [flipBit, BitVec.getLsbD_xor, BitVec.getLsbD_twoPow]
  by_cases h : p = i <;> simp [h]

@[simp] theorem getElem_flipBit (w : BitVec N) (p i : Nat) (hi : i < N) :
    (flipBit w p)[i] = (w[i] ^^ decide (p = i)) := by
  rw [← BitVec.getLsbD_eq_getElem, getLsbD_flipBit]; simp [hi]

@[simp] theorem flipBit_flipBit (w : BitVec N) (p : Nat) : flipBit (flipBit w p) p = w := by
  simp [flipBit]

theorem flipBit_comm (w : BitVec N) (p q : Nat) : flipBit (flipBit w p) q = flipBit (flipBit w q) p := by
  rw [flipBit, flipBit, flipBit, flipBit, BitVec.xor_assoc, BitVec.xor_assoc, BitVec.xor_comm (BitVec.twoPow N p)]

theorem flipBit_xor (a b : BitVec N) (p : Nat) : flipBit (a ^^^ b) p = flipBit a p ^^^ b := by
  rw [flipBit, flipBit, BitVec.xor_assoc, BitVec.xor_assoc, BitVec.xor_comm b]

@[simp] theorem getLsbD_setBit (w : BitVec N) (p : Nat) (v : Bool) (i : Nat) :
    (setBit w p v).getLsbD i = if p = i ∧ i < N then v else w.getLsbD i := by
  unfold setBit
  by_cases hv : w.getLsbD p = v
  · by_cases h : p = i
    · subst h; simp [hv]
    · simp [hv, h]
  · by_cases h : p = i
    · subst h
      by_cases hN : p < N
      · rw [if_neg hv, getLsbD_flipBit]
        cases v <;> simp_all
      · simp [hv, hN]
    · simp [hv, h]

@[simp] theorem getElem_setBit (w : BitVec N) (p : Nat) (v : Bool) (i : Nat) (hi : i < N) :
    (setBit w p v)[i] = if p = i then v else w[i] := by
  rw [← BitVec.getLsbD_eq_getElem, getLsbD_setBit]; simp [hi]

@[simp] theorem flipAll_nil (w : BitVec N) : flipAll w [] = w := rfl

@[simp] theorem flipAll_cons (w : BitVec N) (p : Nat) (E : List Nat) :
    flipAll w (p :: E) = flipAll (flipBit w p) E := rfl

/-! ### `XOR` over positions -/

@[simp] theorem xorOver_nil (w : BitVec N) : xorOver w [] = false := rfl

@[simp] theorem xorOver_cons (w : BitVec N) (j : Nat) (S : List Nat) :
    xorOver w (j :: S) = (w.getLsbD j ^^ xorOver w S) := rfl

theorem xorOver_append (w : BitVec N) (S T : List Nat) :
    xorOver w (S ++ T) = (xorOver w S ^^ xorOver w T) := by
  induction S with
  | nil => simp
  | cons j S ih => simp [ih]

theorem xorOver_xor (a b : BitVec N) (S : List Nat) :
    xorOver (a ^^^ b) S = (xorOver a S ^^ xorOver b S) := by
  induction S with
  | nil => rfl
  | cons j S ih =>
    simp only [xorOver_cons, ih, BitVec.getLsbD_xor]
    cases a.getLsbD j <;> cases b.getLsbD j <;> cases xorOver a S <;> cases xorOver b S <;> rfl

theorem xorOver_congr {a b : BitVec N} {S : List Nat} (h : ∀ j ∈ S, a.getLsbD j = b.getLsbD j) :
    xorOver a S = xorOver b S := by
  induction S with
  | nil => rfl
  | cons j S ih =>
    rw [xorOver_cons, xorOver_cons, h j (by simp), ih (fun i hi => h i (by simp [hi]))]

/-- Flipping position `p` toggles the XOR over a set of positions exactly when the set holds `p`. -/
theorem xorOver_flipBit (w : BitVec N) (p : Nat) (hp : p < N) {S : List Nat} (hS : S.Nodup) :
    xorOver (flipBit w p) S = (xorOver w S ^^ decide (p ∈ S)) := by
  induction S with
  | nil => simp
  | cons j S ih =>
    obtain ⟨hj, hS⟩ := List.nodup_cons.mp hS
    rw [xorOver_cons, xorOver_cons, ih hS, getLsbD_flipBit]
    by_cases h : p = j
    · subst h; simp [hp, hj]
    · simp [h]

/-! ### The signals of a decode -/

theorem covers_eq_testBit (k j : Nat) : covers k j = j.testBit k := by
  have h : j &&& 2 ^ k = (j.testBit k).toNat * 2 ^ k := by
    rw [Nat.and_two_pow]
  unfold covers
  rw [h]
  have : 0 < 2 ^ k := Nat.two_pow_pos k
  cases j.testBit k <;> simp; omega

theorem overallParity_xor (a b : BitVec N) : overallParity (a ^^^ b) = (overallParity a ^^ overallParity b) :=
  xorOver_xor a b _

theorem check_xor (a b : BitVec N) (k : Nat) : check (a ^^^ b) k = (check a k ^^ check b k) :=
  xorOver_xor a b _

theorem mem_cover (k p : Nat) : p ∈ cover N k ↔ p < N ∧ p.testBit k = true := by
  simp [cover, covers_eq_testBit]

/-- One flip toggles the overall parity (rule R74 (i), one flip). -/
theorem overallParity_flipBit (w : BitVec N) (p : Nat) (hp : p < N) :
    overallParity (flipBit w p) = !overallParity w := by
  rw [overallParity, xorOver_flipBit w p hp List.nodup_range]
  simp [overallParity, hp]

/-- One flip at `p` toggles check `k` exactly when bit `k` of `p` is set (rule R74 (ii), one flip). -/
theorem check_flipBit (w : BitVec N) (p k : Nat) (hp : p < N) :
    check (flipBit w p) k = (check w k ^^ p.testBit k) := by
  have hmem : decide (p ∈ cover N k) = p.testBit k := by
    rw [Bool.eq_iff_iff]; simp [mem_cover, hp]
  have hnd : (cover N k).Nodup := List.nodup_range.filter _
  rw [check, xorOver_flipBit w p hp hnd, hmem, check]

theorem syndrome_succ (R : Nat) (w : BitVec N) :
    syndrome (R + 1) w = syndrome R w + (check w R).toNat * 2 ^ R := by
  simp [syndrome, List.range_succ]

theorem syndrome_lt (R : Nat) (w : BitVec N) : syndrome R w < 2 ^ R := by
  induction R with
  | zero => simp [syndrome]
  | succ R ih =>
    rw [syndrome_succ, pow_succ]
    cases check w R <;> simp <;> omega

/-- Bit `k` of the syndrome is check `k` (rule R65). -/
theorem testBit_syndrome (R k : Nat) (w : BitVec N) :
    (syndrome R w).testBit k = (decide (k < R) && check w k) := by
  induction R with
  | zero => simp [syndrome]
  | succ R ih =>
    have hlt := syndrome_lt R w
    rw [syndrome_succ, Nat.add_comm, Nat.mul_comm,
      Nat.testBit_two_pow_mul_add _ hlt]
    by_cases h : k < R
    · simp [h, ih, Nat.lt_succ_of_lt h]
    · by_cases hk : k = R
      · subst hk; cases check w k <;> simp
      · have h1 : ¬ k < R + 1 := by omega
        have h2 : k - R ≠ 0 := by omega
        have h3 : Nat.testBit 1 (k - R) = false := by
          rw [show (1 : Nat) = 2 ^ 0 from rfl, Nat.testBit_two_pow]; simp [Ne.symm h2]
        cases check w R <;> simp [h, h1, h3]

theorem syndrome_eq_zero_iff (R : Nat) (w : BitVec N) : syndrome R w = 0 ↔ ∀ k < R, check w k = false := by
  constructor
  · intro h k hk
    have := testBit_syndrome R k w
    rw [h] at this
    simpa [hk] using this.symm
  · intro h
    apply Nat.eq_of_testBit_eq
    intro k
    rw [testBit_syndrome]
    by_cases hk : k < R <;> simp [hk, h]

theorem wordOf_xor (n : Nat) (f g : Nat → Bool) :
    wordOf n (fun i => f i ^^ g i) = wordOf n f ^^^ wordOf n g := by
  apply BitVec.eq_of_getLsbD_eq
  intro i hi
  simp [hi]

end Sys2Proof.Machine
end

