-- ==== Sys2Proof/Laws/Disks.lean ====
section
/-!
SUPPORT. The virtual disks: reading after each update, and that every update keeps the one form `Memory.wf`
(spec/42_array_environment.md rule R81).
-/

namespace Sys2Proof.Machine

theorem diskRead_eq (ds : Memory) (j o : Nat) : diskRead ds j o = (ds[j]?).bind (fun d => d[o]?) := by
  unfold diskRead
  cases ds[j]? <;> rfl

/-! ### The form of the storage -/

theorem Memory.wf_iff (ds : Memory) :
    ds.wf = true ↔ ds.length = 13 ∧ ∀ d ∈ ds, d.length = usedBytes ds := by
  simp [Memory.wf, usedBytes]

/-- Thirteen disks of one length have the form, and that length is the number of bytes written. -/
theorem wf_of_lengths {ds : Memory} {n : Nat} (hlen : ds.length = 13) (h : ∀ d ∈ ds, d.length = n) :
    ds.wf = true ∧ usedBytes ds = n := by
  have hu : usedBytes ds = n := by
    cases ds with
    | nil => simp at hlen
    | cons d ds => exact h d (by simp)
  exact ⟨(Memory.wf_iff ds).mpr ⟨hlen, by rw [hu]; exact h⟩, hu⟩

/-- In a store of the form there is a bit exactly at the offsets written of each of the 13 disks. -/
theorem diskRead_isSome {ds : Memory} (h : ds.wf = true) (j o : Nat) :
    (diskRead ds j o).isSome = (decide (j < 13) && decide (o < usedBytes ds)) := by
  obtain ⟨hlen, hall⟩ := (Memory.wf_iff ds).mp h
  rw [diskRead_eq]
  by_cases hj : j < 13
  · have hj' : j < ds.length := by omega
    have := hall ds[j] (List.getElem_mem hj')
    have hb : (ds[j][o]?).isSome = decide (o < usedBytes ds) := by
      rw [Bool.eq_iff_iff, Option.isSome_iff_ne_none, ne_eq, List.getElem?_eq_none_iff, this]; simp
    rw [List.getElem?_eq_getElem hj', Option.bind_some, hb]
    simp [hj]
  · simp [hj, List.getElem?_eq_none (show ds.length ≤ j by omega)]

/-- Updating one disk by a length-preserving function keeps the form and the number of bytes written. -/
theorem wf_modify {ds : Memory} (h : ds.wf = true) (j : Nat) {f : Disk → Disk} (hf : ∀ d, (f d).length = d.length) :
    Memory.wf (ds.modify j f) = true ∧ usedBytes (ds.modify j f) = usedBytes ds := by
  obtain ⟨hlen, hall⟩ := (Memory.wf_iff ds).mp h
  refine wf_of_lengths (by simpa using hlen) fun d hd => ?_
  obtain ⟨i, hi, rfl⟩ := List.getElem_of_mem hd
  have hi' : i < ds.length := by simpa using hi
  have := hall ds[i] (List.getElem_mem hi')
  rw [List.getElem_modify]
  split <;> simp [hf, this]

/-! ### DiskWrite -/

theorem diskWrite_eq_some_iff {ds ds' : Memory} {j o : Nat} {v : Bool} :
    diskWrite ds j o v = some ds' ↔
      (diskRead ds j o).isSome = true ∧ ds' = ds.modify j (fun d => d.set o v) := by
  unfold diskWrite
  cases diskRead ds j o <;> simp [eq_comm]

/-- What a read gives after a write. -/
theorem diskRead_diskWrite {ds ds' : Memory} {j o : Nat} {v : Bool} (h : diskWrite ds j o v = some ds')
    (i k : Nat) : diskRead ds' i k = if i = j ∧ k = o then some v else diskRead ds i k := by
  obtain ⟨hs, rfl⟩ := diskWrite_eq_some_iff.mp h
  rw [diskRead_eq] at hs
  rw [diskRead_eq, diskRead_eq, List.getElem?_modify]
  by_cases hi : j = i
  · subst hi
    cases hd : ds[j]? with
    | none => simp [hd] at hs
    | some d =>
      rw [hd] at hs
      have ho : o < d.length := by simpa using hs
      simp only [if_true, Option.map_eq_map, Option.map_some, Option.bind_some, List.getElem?_set, true_and]
      by_cases hk : o = k
      · subst hk; simp [ho]
      · simp [hk, Ne.symm hk]
  · simp [hi, Ne.symm hi]

theorem diskWrite_wf {ds ds' : Memory} {j o : Nat} {v : Bool} (hw : diskWrite ds j o v = some ds')
    (h : ds.wf = true) : ds'.wf = true ∧ usedBytes ds' = usedBytes ds := by
  obtain ⟨-, rfl⟩ := diskWrite_eq_some_iff.mp hw
  exact wf_modify h j (by simp)

theorem diskWrite_lengths {ds ds' : Memory} {j o : Nat} {v : Bool} (hw : diskWrite ds j o v = some ds') :
    ds'.map List.length = ds.map List.length := by
  obtain ⟨-, rfl⟩ := diskWrite_eq_some_iff.mp hw
  apply List.ext_getElem?
  intro i
  simp only [List.getElem?_map, List.getElem?_modify]
  cases ds[i]? <;> simp
  split <;> simp

/-! ### A whole disk complemented -/

theorem diskRead_diskComplement (ds : Memory) (j i o : Nat) :
    diskRead (diskComplement ds j) i o =
      if i = j then (diskRead ds i o).map (fun b => !b) else diskRead ds i o := by
  rw [diskRead_eq, diskRead_eq, diskComplement, List.getElem?_modify]
  by_cases hi : j = i
  · subst hi; cases ds[j]? <;> simp
  · simp [hi, Ne.symm hi]

theorem diskComplement_wf {ds : Memory} (h : ds.wf = true) (j : Nat) :
    Memory.wf (diskComplement ds j) = true ∧ usedBytes (diskComplement ds j) = usedBytes ds :=
  wf_modify h j (by simp)

/-! ### A codeword appended -/

theorem getElem?_diskAppend (ds : Memory) (j : Nat) (v : Bool) (i : Nat) :
    (diskAppend ds j v)[i]? = if i = j then (ds[i]?).map (fun d => d ++ [v]) else ds[i]? := by
  rw [diskAppend, List.getElem?_modify]
  by_cases hi : j = i
  · subst hi; simp
  · simp [hi, Ne.symm hi]

theorem getElem?_appendUpTo (cw : Codeword) (n : Nat) (ds : Memory) (i : Nat) :
    ((List.range n).foldl (fun m j => diskAppend m j (cw.getLsbD j)) ds)[i]? =
      if i < n then (ds[i]?).map (fun d => d ++ [cw.getLsbD i]) else ds[i]? := by
  induction n with
  | zero => simp
  | succ n ih =>
    rw [List.range_succ, List.foldl_append, List.foldl_cons, List.foldl_nil, getElem?_diskAppend, ih]
    by_cases h : i = n
    · subst h; simp
    · have : (i < n + 1) ↔ (i < n) := by omega
      simp [h, this]

/-- Disk `j` after a codeword is appended. -/
theorem getElem?_appendCodeword (ds : Memory) (cw : Codeword) (i : Nat) :
    (appendCodeword ds cw)[i]? = if i < 13 then (ds[i]?).map (fun d => d ++ [cw.getLsbD i]) else ds[i]? :=
  getElem?_appendUpTo cw 13 ds i

theorem length_appendCodeword (ds : Memory) (cw : Codeword) : (appendCodeword ds cw).length = ds.length := by
  unfold appendCodeword
  generalize List.range 13 = S
  induction S generalizing ds with
  | nil => rfl
  | cons j S ih => rw [List.foldl_cons, ih, diskAppend, List.length_modify]

/-- Appending a codeword keeps the form, and every disk is one bit longer. -/
theorem appendCodeword_wf {ds : Memory} (h : ds.wf = true) (cw : Codeword) :
    Memory.wf (appendCodeword ds cw) = true ∧ usedBytes (appendCodeword ds cw) = usedBytes ds + 1 := by
  obtain ⟨hlen, hall⟩ := (Memory.wf_iff ds).mp h
  refine wf_of_lengths (by rw [length_appendCodeword, hlen]) fun d hd => ?_
  obtain ⟨i, hi, rfl⟩ := List.getElem_of_mem hd
  have hi' : i < ds.length := by rwa [length_appendCodeword] at hi
  have h13 : i < 13 := by omega
  have := getElem?_appendCodeword ds cw i
  rw [if_pos h13, List.getElem?_eq_getElem hi, List.getElem?_eq_getElem hi', Option.map_some,
    Option.some.injEq] at this
  rw [this, List.length_append, hall _ (List.getElem_mem hi'), List.length_singleton]

/-- What was stored stays, and the new offset of disk `j` holds bit `j`. -/
theorem diskRead_appendCodeword {ds : Memory} (h : ds.wf = true) (cw : Codeword) (j o : Nat) :
    diskRead (appendCodeword ds cw) j o =
      if o = usedBytes ds ∧ j < 13 then some (cw.getLsbD j) else diskRead ds j o := by
  obtain ⟨hlen, hall⟩ := (Memory.wf_iff ds).mp h
  rw [diskRead_eq, diskRead_eq, getElem?_appendCodeword]
  by_cases hj : j < 13
  · have hj' : j < ds.length := by omega
    have hd := hall ds[j] (List.getElem_mem hj')
    simp only [hj, if_true, and_true, List.getElem?_eq_getElem hj', Option.map_some, Option.bind_some]
    by_cases ho : o = usedBytes ds
    · subst ho; simp [← hd]
    · rcases Nat.lt_or_gt_of_ne ho with hlt | hgt
      · rw [List.getElem?_append_left (by omega)]; simp [ho]
      · rw [List.getElem?_eq_none (by simp; omega), List.getElem?_eq_none (by omega)]; simp [ho]
  · simp [hj]

/-- Stored bits survive an append on any store at all. -/
theorem diskRead_appendCodeword_of_some {ds : Memory} (cw : Codeword) {j o : Nat} {b : Bool}
    (h : diskRead ds j o = some b) : diskRead (appendCodeword ds cw) j o = some b := by
  rw [diskRead_eq] at h ⊢
  rw [getElem?_appendCodeword]
  cases hd : ds[j]? with
  | none => simp [hd] at h
  | some d =>
    rw [hd, Option.bind_some] at h
    have ho : o < d.length := (List.getElem?_eq_some_iff.mp h).1
    split
    · rw [Option.map_some, Option.bind_some, List.getElem?_append_left ho, h]
    · rw [Option.bind_some, h]

/-! ### Gathering a word -/

theorem gather_eq_some_iff {ds : Memory} {o : Nat} {w : Codeword} :
    gather ds o = some w ↔ ∀ j < 13, diskRead ds j o = some (w.getLsbD j) := by
  unfold gather
  constructor
  · intro h j hj
    split at h
    · rename_i hall
      rw [List.all_eq_true] at hall
      have := hall j (by simpa using hj)
      obtain ⟨b, hb⟩ := Option.isSome_iff_exists.mp this
      obtain rfl := Option.some.inj h
      rw [getLsbD_wordOf]
      simp [hj, hb]
    · cases h
  · intro h
    rw [if_pos]
    · rw [Option.some.injEq]
      apply BitVec.eq_of_getLsbD_eq
      intro j hj
      simp [hj, h j hj]
    · simp only [List.all_eq_true, List.mem_range]
      intro j hj
      rw [h j hj]; rfl

/-- Stores that agree at an offset gather the same word there. -/
theorem gather_congr {ds ds' : Memory} {o : Nat} (h : ∀ j < 13, diskRead ds' j o = diskRead ds j o) :
    gather ds' o = gather ds o := by
  have key : ∀ w, gather ds' o = some w ↔ gather ds o = some w := by
    intro w
    rw [gather_eq_some_iff, gather_eq_some_iff]
    exact ⟨fun k j hj => (h j hj) ▸ k j hj, fun k j hj => (h j hj).trans (k j hj)⟩
  cases hg : gather ds o with
  | some w => exact (key w).mpr hg
  | none =>
    cases hg' : gather ds' o with
    | none => rfl
    | some w => rw [(key w).mp hg'] at hg; cases hg

/-- Every offset written gathers a word. -/
theorem gather_of_wf {ds : Memory} (h : ds.wf = true) {o : Nat} (ho : o < usedBytes ds) :
    ∃ w, gather ds o = some w := by
  refine ⟨wordOf 13 (fun j => (diskRead ds j o).getD false), gather_eq_some_iff.mpr fun j hj => ?_⟩
  have := diskRead_isSome h j o
  obtain ⟨b, hb⟩ := Option.isSome_iff_exists.mp (this.trans (by simp [hj, ho]))
  rw [getLsbD_wordOf]
  simp [hj, hb]

end Sys2Proof.Machine
end

