-- ==== Sys2Proof/Laws/State.lean ====
section
/-!
SUPPORT. One lemma per field per update of the state, so that no later proof unfolds a record update.
-/

namespace Sys2Proof.Machine

/-! ### `withEnc` -/

@[simp] theorem State.withEnc_encData (s : State) (d : Data) (cw : Codeword) :
    (s.withEnc d cw).encData = d := rfl

@[simp] theorem State.withEnc_encCw (s : State) (d : Data) (cw : Codeword) :
    (s.withEnc d cw).encCw = cw := rfl

@[simp] theorem State.withEnc_decCw (s : State) (d : Data) (cw : Codeword) :
    (s.withEnc d cw).decCw = s.decCw := rfl

@[simp] theorem State.withEnc_decOut (s : State) (d : Data) (cw : Codeword) :
    (s.withEnc d cw).decOut = s.decOut := rfl

@[simp] theorem State.withEnc_array (s : State) (d : Data) (cw : Codeword) :
    (s.withEnc d cw).array = s.array := rfl

@[simp] theorem State.withEnc_reply (s : State) (d : Data) (cw : Codeword) :
    (s.withEnc d cw).reply = s.reply := rfl

@[simp] theorem State.withEnc_requests (s : State) (d : Data) (cw : Codeword) :
    (s.withEnc d cw).requests = s.requests := rfl

/-! ### `withDec` -/

@[simp] theorem State.withDec_encData (s : State) (w : Codeword) (o : DecOut 8 4 13) :
    (s.withDec w o).encData = s.encData := rfl

@[simp] theorem State.withDec_encCw (s : State) (w : Codeword) (o : DecOut 8 4 13) :
    (s.withDec w o).encCw = s.encCw := rfl

@[simp] theorem State.withDec_decCw (s : State) (w : Codeword) (o : DecOut 8 4 13) :
    (s.withDec w o).decCw = w := rfl

@[simp] theorem State.withDec_decOut (s : State) (w : Codeword) (o : DecOut 8 4 13) :
    (s.withDec w o).decOut = o := rfl

@[simp] theorem State.withDec_array (s : State) (w : Codeword) (o : DecOut 8 4 13) :
    (s.withDec w o).array = s.array := rfl

@[simp] theorem State.withDec_reply (s : State) (w : Codeword) (o : DecOut 8 4 13) :
    (s.withDec w o).reply = s.reply := rfl

@[simp] theorem State.withDec_requests (s : State) (w : Codeword) (o : DecOut 8 4 13) :
    (s.withDec w o).requests = s.requests := rfl

/-! ### `withArray` -/

@[simp] theorem State.withArray_encData (s : State) (a : DiskArray) :
    (s.withArray a).encData = s.encData := rfl

@[simp] theorem State.withArray_encCw (s : State) (a : DiskArray) :
    (s.withArray a).encCw = s.encCw := rfl

@[simp] theorem State.withArray_decCw (s : State) (a : DiskArray) :
    (s.withArray a).decCw = s.decCw := rfl

@[simp] theorem State.withArray_decOut (s : State) (a : DiskArray) :
    (s.withArray a).decOut = s.decOut := rfl

@[simp] theorem State.withArray_array (s : State) (a : DiskArray) :
    (s.withArray a).array = a := rfl

@[simp] theorem State.withArray_reply (s : State) (a : DiskArray) :
    (s.withArray a).reply = s.reply := rfl

@[simp] theorem State.withArray_requests (s : State) (a : DiskArray) :
    (s.withArray a).requests = s.requests := rfl

/-! ### `withDisks` -/

@[simp] theorem State.withDisks_encData (s : State) (ds : Memory) :
    (s.withDisks ds).encData = s.encData := rfl

@[simp] theorem State.withDisks_encCw (s : State) (ds : Memory) :
    (s.withDisks ds).encCw = s.encCw := rfl

@[simp] theorem State.withDisks_decCw (s : State) (ds : Memory) :
    (s.withDisks ds).decCw = s.decCw := rfl

@[simp] theorem State.withDisks_decOut (s : State) (ds : Memory) :
    (s.withDisks ds).decOut = s.decOut := rfl

@[simp] theorem State.withDisks_array_disks (s : State) (ds : Memory) :
    (s.withDisks ds).array.disks = ds := rfl

@[simp] theorem State.withDisks_array_totalCapacity (s : State) (ds : Memory) :
    (s.withDisks ds).array.totalCapacity = s.array.totalCapacity := rfl

@[simp] theorem State.withDisks_array_freeSpace (s : State) (ds : Memory) :
    (s.withDisks ds).array.freeSpace = s.array.freeSpace := rfl

@[simp] theorem State.withDisks_array_directory (s : State) (ds : Memory) :
    (s.withDisks ds).array.directory = s.array.directory := rfl

@[simp] theorem State.withDisks_reply (s : State) (ds : Memory) :
    (s.withDisks ds).reply = s.reply := rfl

@[simp] theorem State.withDisks_requests (s : State) (ds : Memory) :
    (s.withDisks ds).requests = s.requests := rfl

/-! ### `withReply` -/

@[simp] theorem State.withReply_encData (s : State) (r : Reply) :
    (s.withReply r).encData = s.encData := rfl

@[simp] theorem State.withReply_encCw (s : State) (r : Reply) :
    (s.withReply r).encCw = s.encCw := rfl

@[simp] theorem State.withReply_decCw (s : State) (r : Reply) :
    (s.withReply r).decCw = s.decCw := rfl

@[simp] theorem State.withReply_decOut (s : State) (r : Reply) :
    (s.withReply r).decOut = s.decOut := rfl

@[simp] theorem State.withReply_array (s : State) (r : Reply) :
    (s.withReply r).array = s.array := rfl

@[simp] theorem State.withReply_reply (s : State) (r : Reply) :
    (s.withReply r).reply = some r := rfl

@[simp] theorem State.withReply_requests (s : State) (r : Reply) :
    (s.withReply r).requests = s.requests := rfl

/-! ### `withRequests` -/

@[simp] theorem State.withRequests_encData (s : State) (q : List Request) :
    (s.withRequests q).encData = s.encData := rfl

@[simp] theorem State.withRequests_encCw (s : State) (q : List Request) :
    (s.withRequests q).encCw = s.encCw := rfl

@[simp] theorem State.withRequests_decCw (s : State) (q : List Request) :
    (s.withRequests q).decCw = s.decCw := rfl

@[simp] theorem State.withRequests_decOut (s : State) (q : List Request) :
    (s.withRequests q).decOut = s.decOut := rfl

@[simp] theorem State.withRequests_array (s : State) (q : List Request) :
    (s.withRequests q).array = s.array := rfl

@[simp] theorem State.withRequests_reply (s : State) (q : List Request) :
    (s.withRequests q).reply = s.reply := rfl

@[simp] theorem State.withRequests_requests (s : State) (q : List Request) :
    (s.withRequests q).requests = q := rfl

/-! ### Driving the encoder -/

@[simp] theorem driveEnc_encData (d : Data) (s : State) : (driveEnc d s).encData = d := rfl

@[simp] theorem driveEnc_encCw (d : Data) (s : State) : (driveEnc d s).encCw = encWord d := rfl

@[simp] theorem driveEnc_decCw (d : Data) (s : State) : (driveEnc d s).decCw = s.decCw := rfl

@[simp] theorem driveEnc_decOut (d : Data) (s : State) : (driveEnc d s).decOut = s.decOut := rfl

@[simp] theorem driveEnc_array (d : Data) (s : State) : (driveEnc d s).array = s.array := rfl

@[simp] theorem driveEnc_reply (d : Data) (s : State) : (driveEnc d s).reply = s.reply := rfl

@[simp] theorem driveEnc_requests (d : Data) (s : State) : (driveEnc d s).requests = s.requests := rfl

end Sys2Proof.Machine
end

