-- ==== Sys2Proof/Laws/Ops.lean ====
section
/-!
SUPPORT. What the decoder's evaluation and the two drives can do, once.
-/

namespace Sys2Proof.Machine

/-! ### The decoder's evaluation: one equation for each row of rule R66 -/

theorem decodeAt_of_even_zero {N : Nat} (pol : OorPolicy) (M R : Nat) {w : BitVec N}
    (ho : overallParity w = false) (hs : syndrome R w = 0) :
    decodeAt pol M R w = some (.noError (extract M w), w) := by
  simp [decodeAt, classify, ho, hs]

theorem decodeAt_of_odd {N : Nat} (pol : OorPolicy) (M R : Nat) {w : BitVec N}
    (ho : overallParity w = true) (hs : syndrome R w < N) :
    decodeAt pol M R w =
      some (.oneError (extract M (flipBit w (syndrome R w))) (syndrome R w), flipBit w (syndrome R w)) := by
  simp [decodeAt, classify, ho, hs]

theorem decodeAt_of_odd_beyond {N : Nat} (pol : OorPolicy) (M R : Nat) {w : BitVec N}
    (ho : overallParity w = true) (hs : N ≤ syndrome R w) :
    decodeAt pol M R w =
      match pol with
      | .reportNoFlip => some (.oneError (extract M w) (syndrome R w), w)
      | .fault => none := by
  have : ¬ syndrome R w < N := by omega
  cases pol <;> simp [decodeAt, classify, ho, this]

theorem decodeAt_of_even_nonzero {N : Nat} (pol : OorPolicy) (M R : Nat) {w : BitVec N}
    (ho : overallParity w = false) (hs : syndrome R w ≠ 0) :
    decodeAt pol M R w = some (.doubleError, w) := by
  simp [decodeAt, classify, ho, hs]

/-- Everything an evaluation can answer. -/
theorem decodeAt_cases {N : Nat} {pol : OorPolicy} {M R : Nat} {w f : BitVec N} {r : DecResult M}
    (h : decodeAt pol M R w = some (r, f)) :
    (overallParity w = false ∧ syndrome R w = 0 ∧ r = .noError (extract M w) ∧ f = w) ∨
    (overallParity w = true ∧ syndrome R w < N ∧
      r = .oneError (extract M (flipBit w (syndrome R w))) (syndrome R w) ∧ f = flipBit w (syndrome R w)) ∨
    (overallParity w = true ∧ N ≤ syndrome R w ∧ pol = .reportNoFlip ∧
      r = .oneError (extract M w) (syndrome R w) ∧ f = w) ∨
    (overallParity w = false ∧ syndrome R w ≠ 0 ∧ r = .doubleError ∧ f = w) := by
  cases ho : overallParity w with
  | false =>
    by_cases hs : syndrome R w = 0
    · rw [decodeAt_of_even_zero pol M R ho hs] at h
      simp only [Option.some.injEq, Prod.mk.injEq] at h
      exact .inl ⟨rfl, hs, h.1.symm, h.2.symm⟩
    · rw [decodeAt_of_even_nonzero pol M R ho hs] at h
      simp only [Option.some.injEq, Prod.mk.injEq] at h
      exact .inr (.inr (.inr ⟨rfl, hs, h.1.symm, h.2.symm⟩))
  | true =>
    by_cases hs : syndrome R w < N
    · rw [decodeAt_of_odd pol M R ho hs] at h
      simp only [Option.some.injEq, Prod.mk.injEq] at h
      exact .inr (.inl ⟨rfl, hs, h.1.symm, h.2.symm⟩)
    · rw [decodeAt_of_odd_beyond pol M R ho (by omega)] at h
      cases pol with
      | fault => cases h
      | reportNoFlip =>
        simp only [Option.some.injEq, Prod.mk.injEq] at h
        exact .inr (.inr (.inl ⟨rfl, by omega, rfl, h.1.symm, h.2.symm⟩))

/-! ### Ports -/

theorem decPorts_eq {pol : OorPolicy} {w : Codeword} {r : DecResult 8} {f : Codeword}
    (h : decWord pol w = some (r, f)) : decPorts pol w = some (portsOfResult 4 r f) := by
  rw [decPorts, h]

theorem decPorts_of_even_zero (pol : OorPolicy) {w : Codeword} (ho : overallParity w = false)
    (hs : syndrome 4 w = 0) : decPorts pol w = some ⟨0#2, 0#4, extract 8 w, w⟩ :=
  decPorts_eq (decodeAt_of_even_zero pol 8 4 ho hs)

theorem decPorts_of_odd (pol : OorPolicy) {w : Codeword} (ho : overallParity w = true) (hs : syndrome 4 w < 13) :
    decPorts pol w = some ⟨1#2, BitVec.ofNat 4 (syndrome 4 w), extract 8 (flipBit w (syndrome 4 w)),
      flipBit w (syndrome 4 w)⟩ :=
  decPorts_eq (decodeAt_of_odd pol 8 4 ho hs)

theorem decPorts_of_odd_beyond {w : Codeword} (ho : overallParity w = true) (hs : 13 ≤ syndrome 4 w) :
    decPorts Config.oorPolicy w = some ⟨1#2, BitVec.ofNat 4 (syndrome 4 w), extract 8 w, w⟩ :=
  decPorts_eq (decodeAt_of_odd_beyond .reportNoFlip 8 4 ho hs)

theorem decPorts_of_even_nonzero (pol : OorPolicy) {w : Codeword} (ho : overallParity w = false)
    (hs : syndrome 4 w ≠ 0) : decPorts pol w = some ⟨2#2, 0#4, 0#8, w⟩ :=
  decPorts_eq (decodeAt_of_even_nonzero pol 8 4 ho hs)

/-- `dec_pos` read as a number is the syndrome it was made of. -/
@[simp] theorem toNat_ofNat_syndrome (w : Codeword) : (BitVec.ofNat 4 (syndrome 4 w)).toNat = syndrome 4 w := by
  rw [BitVec.toNat_ofNat, Nat.mod_eq_of_lt (syndrome_lt 4 w)]

/-- At the default policy the decoder answers every word. -/
theorem decPorts_isSome (w : Codeword) : ∃ o, decPorts Config.oorPolicy w = some o := by
  cases h : decWord Config.oorPolicy w with
  | some rf => exact ⟨_, decPorts_eq (r := rf.1) (f := rf.2) h⟩
  | none =>
    exfalso
    unfold decWord Config.oorPolicy decodeAt at h
    simp only at h
    split at h
    · cases h
    · split at h <;> cases h
    · cases h

theorem driveDec_eq_some_iff {pol : OorPolicy} {w : Codeword} {s t : State} :
    driveDec pol w s = some t ↔ ∃ o, decPorts pol w = some o ∧ t = s.withDec w o := by
  unfold driveDec
  cases decPorts pol w <;> simp [eq_comm]

/-! ### The two meanings -/

theorem exec_enc (d : Data) (s : State) : exec (.enc d) s = .next (s.withEnc d (encWord d)) := rfl

theorem execDecWith_of_ports {pol : OorPolicy} {w : Codeword} {o : DecOut 8 4 13} (s : State)
    (h : decPorts pol w = some o) : execDecWith pol w s = .next (s.withDec w o) := by
  rw [execDecWith, driveDec, h]

theorem exec_dec_of_ports {w : Codeword} {o : DecOut 8 4 13} (s : State)
    (h : decPorts Config.oorPolicy w = some o) : exec (.dec w) s = .next (s.withDec w o) :=
  execDecWith_of_ports s h

/-- `DEC` answers a next state for every word: the decoder's ports, and nothing else, are replaced. -/
theorem exec_dec (w : Codeword) (s : State) :
    ∃ o, decPorts Config.oorPolicy w = some o ∧ exec (.dec w) s = .next (s.withDec w o) := by
  obtain ⟨o, ho⟩ := decPorts_isSome w
  exact ⟨o, ho, exec_dec_of_ports s ho⟩

end Sys2Proof.Machine
end

