-- ==== Sys2Proof/Laws/Array.lean ====
section
/-!
SUPPORT. What the array's operations can do, once: a byte stored, a byte read, and the loops over them.
-/

namespace Sys2Proof.Machine

/-! ### Storing -/

@[simp] theorem storeBytes_nil (s : State) : storeBytes [] s = s := rfl

@[simp] theorem storeBytes_cons (b : Byte) (bs : List Byte) (s : State) :
    storeBytes (b :: bs) s = storeBytes bs (storeByte s b) := rfl

@[simp] theorem storeByte_disks (s : State) (b : Byte) :
    (storeByte s b).array.disks = appendCodeword s.array.disks (encWord (bitsOfByte b)) := by
  simp only [storeByte, State.withDisks_array_disks, driveEnc_array, driveEnc_encCw]

@[simp] theorem storeByte_encData (s : State) (b : Byte) : (storeByte s b).encData = bitsOfByte b := by
  simp only [storeByte, State.withDisks_encData, driveEnc_encData]

@[simp] theorem storeByte_encCw (s : State) (b : Byte) : (storeByte s b).encCw = encWord (bitsOfByte b) := by
  simp only [storeByte, State.withDisks_encCw, driveEnc_encCw]

/-- What storing bytes leaves alone. -/
theorem storeBytes_frame (data : List Byte) (s : State) :
    (storeBytes data s).decCw = s.decCw ∧ (storeBytes data s).decOut = s.decOut ∧
    (storeBytes data s).reply = s.reply ∧ (storeBytes data s).requests = s.requests ∧
    (storeBytes data s).array.totalCapacity = s.array.totalCapacity ∧
    (storeBytes data s).array.freeSpace = s.array.freeSpace ∧
    (storeBytes data s).array.directory = s.array.directory := by
  induction data generalizing s with
  | nil => exact ⟨rfl, rfl, rfl, rfl, rfl, rfl, rfl⟩
  | cons b bs ih => exact ih (storeByte s b)

/-- The encoder's wires agree after storing if they agreed before. -/
theorem storeBytes_enc (data : List Byte) (s : State) (h : s.encCw = encWord s.encData) :
    (storeBytes data s).encCw = encWord (storeBytes data s).encData := by
  induction data generalizing s with
  | nil => exact h
  | cons b bs ih => exact ih (storeByte s b) (by rw [storeByte_encCw, storeByte_encData])

/-- Storing keeps the form, and every disk grows by one bit per byte. -/
theorem storeBytes_wf (data : List Byte) (s : State) (h : s.array.disks.wf = true) :
    (storeBytes data s).array.disks.wf = true ∧
    usedBytes (storeBytes data s).array.disks = usedBytes s.array.disks + data.length := by
  induction data generalizing s with
  | nil => exact ⟨h, rfl⟩
  | cons b bs ih =>
    obtain ⟨h1, h2⟩ := appendCodeword_wf h (encWord (bitsOfByte b))
    rw [← storeByte_disks] at h1 h2
    obtain ⟨h3, h4⟩ := ih (storeByte s b) h1
    refine ⟨h3, ?_⟩
    rw [storeBytes_cons, h4, h2, List.length_cons]
    omega

/-! ### Reading one byte -/

/-- Everything the per-byte state machine can do (rule R94). -/
theorem readByte_cases (pol : OorPolicy) (o : Nat) (s : State) :
    (gather s.array.disks o = none ∧ readByte pol o s = .stopped .diskBitAbsent) ∨
    ∃ w, gather s.array.disks o = some w ∧
      ((decPorts pol w = none ∧ readByte pol o s = .stopped .syndromeNamesNoPosition) ∨
       ∃ p, decPorts pol w = some p ∧ readByte pol o s = acceptByte o (s.withDec w p)) := by
  cases hg : gather s.array.disks o with
  | none => exact .inl ⟨rfl, by rw [readByte, hg]⟩
  | some w =>
    refine .inr ⟨w, rfl, ?_⟩
    cases hp : decPorts pol w with
    | none => exact .inl ⟨rfl, by simp only [readByte, hg, driveDec, hp]⟩
    | some p => exact .inr ⟨p, rfl, by simp only [readByte, hg, driveDec, hp]⟩

/-- Everything the environment does with a class (rules R91, R92). -/
theorem acceptByte_cases (o : Nat) (s : State) :
    (classOfStatus s.decOut.status = some .noError ∧ acceptByte o s = .clean (byteOfBits s.decOut.data) s) ∨
    (classOfStatus s.decOut.status = some .oneError ∧
      ((diskWrite s.array.disks s.decOut.pos.toNat o (s.decOut.cwFixed.getLsbD s.decOut.pos.toNat) = none ∧
          acceptByte o s = .stopped .positionNamesNoDisk) ∨
        ∃ ds, diskWrite s.array.disks s.decOut.pos.toNat o
            (s.decOut.cwFixed.getLsbD s.decOut.pos.toNat) = some ds ∧
          acceptByte o s = .healed (byteOfBits s.decOut.data) (s.withDisks ds))) ∨
    (classOfStatus s.decOut.status = some .doubleError ∧ acceptByte o s = .abort s) ∨
    (classOfStatus s.decOut.status = none ∧ acceptByte o s = .stopped .statusNeverProduced) := by
  cases hc : classOfStatus s.decOut.status with
  | none => exact .inr (.inr (.inr ⟨rfl, by simp only [acceptByte, hc]⟩))
  | some c =>
    cases c with
    | noError => exact .inl ⟨rfl, by simp only [acceptByte, hc]⟩
    | doubleError => exact .inr (.inr (.inl ⟨rfl, by simp only [acceptByte, hc]⟩))
    | oneError =>
      refine .inr (.inl ⟨rfl, ?_⟩)
      cases hw : diskWrite s.array.disks s.decOut.pos.toNat o
          (s.decOut.cwFixed.getLsbD s.decOut.pos.toNat) with
      | none => exact .inl ⟨rfl, by simp only [acceptByte, hc, repairBit, hw]⟩
      | some ds => exact .inr ⟨ds, rfl, by simp only [acceptByte, hc, repairBit, hw]⟩

@[simp] theorem classOfStatus_statusCode (c : ResultClass) : classOfStatus (statusCode c) = some c := by
  cases c <;> rfl

/-- The status on the ports names the class of the result. -/
@[simp] theorem classOfStatus_portsOfResult {M N : Nat} (R : Nat) (r : DecResult M) (f : BitVec N) :
    classOfStatus (portsOfResult R r f).status = some (resultClass r) := by
  cases r <;> rfl

theorem readByte_of_ports {pol : OorPolicy} {o : Nat} {s : State} {w : Codeword} {p : DecOut 8 4 13}
    (hg : gather s.array.disks o = some w) (hp : decPorts pol w = some p) :
    readByte pol o s = acceptByte o (s.withDec w p) := by
  simp only [readByte, hg, driveDec, hp]

theorem acceptByte_of_noError {o : Nat} {s : State} (h : s.decOut.status = statusCode .noError) :
    acceptByte o s = .clean (byteOfBits s.decOut.data) s := by
  simp only [acceptByte, h, classOfStatus_statusCode]

theorem acceptByte_of_oneError {o : Nat} {s : State} {ds : Memory} (h : s.decOut.status = statusCode .oneError)
    (hw : diskWrite s.array.disks s.decOut.pos.toNat o (s.decOut.cwFixed.getLsbD s.decOut.pos.toNat) = some ds) :
    acceptByte o s = .healed (byteOfBits s.decOut.data) (s.withDisks ds) := by
  simp only [acceptByte, h, classOfStatus_statusCode, repairBit, hw]

theorem acceptByte_of_no_disk {o : Nat} {s : State} (h : s.decOut.status = statusCode .oneError)
    (hw : diskWrite s.array.disks s.decOut.pos.toNat o (s.decOut.cwFixed.getLsbD s.decOut.pos.toNat) = none) :
    acceptByte o s = .stopped .positionNamesNoDisk := by
  simp only [acceptByte, h, classOfStatus_statusCode, repairBit, hw]

theorem acceptByte_of_doubleError {o : Nat} {s : State} (h : s.decOut.status = statusCode .doubleError) :
    acceptByte o s = .abort s := by
  simp only [acceptByte, h, classOfStatus_statusCode]

/-- The ports a byte's read leaves: the gathered word on `dec_cw` and what the decoder gives for it. -/
theorem readByte_clean {pol : OorPolicy} {o : Nat} {s t : State} {b : Byte} (h : readByte pol o s = .clean b t) :
    ∃ w p, gather s.array.disks o = some w ∧ decPorts pol w = some p ∧
      classOfStatus p.status = some .noError ∧ b = byteOfBits p.data ∧ t = s.withDec w p := by
  rcases readByte_cases pol o s with ⟨_, hr⟩ | ⟨w, hg, ⟨_, hr⟩ | ⟨p, hp, hr⟩⟩ <;> rw [hr] at h
  · cases h
  · cases h
  rcases acceptByte_cases o (s.withDec w p) with
    ⟨hc, ha⟩ | ⟨_, ⟨_, ha⟩ | ⟨_, _, ha⟩⟩ | ⟨_, ha⟩ | ⟨_, ha⟩ <;> rw [ha] at h <;> cases h
  exact ⟨w, p, hg, hp, hc, rfl, rfl⟩

/-- A healed byte: the bit of disk `dec_pos` at that offset takes `dec_cw_fixed[dec_pos]`. -/
theorem readByte_healed {pol : OorPolicy} {o : Nat} {s t : State} {b : Byte} (h : readByte pol o s = .healed b t) :
    ∃ w p ds, gather s.array.disks o = some w ∧ decPorts pol w = some p ∧
      classOfStatus p.status = some .oneError ∧
      diskWrite s.array.disks p.pos.toNat o (p.cwFixed.getLsbD p.pos.toNat) = some ds ∧
      b = byteOfBits p.data ∧ t = (s.withDec w p).withDisks ds := by
  rcases readByte_cases pol o s with ⟨_, hr⟩ | ⟨w, hg, ⟨_, hr⟩ | ⟨p, hp, hr⟩⟩ <;> rw [hr] at h
  · cases h
  · cases h
  rcases acceptByte_cases o (s.withDec w p) with
    ⟨_, ha⟩ | ⟨hc, ⟨_, ha⟩ | ⟨ds, hw, ha⟩⟩ | ⟨_, ha⟩ | ⟨_, ha⟩ <;> rw [ha] at h <;> cases h
  exact ⟨w, p, ds, hg, hp, hc, hw, rfl, rfl⟩

theorem readByte_abort {pol : OorPolicy} {o : Nat} {s t : State} (h : readByte pol o s = .abort t) :
    ∃ w p, gather s.array.disks o = some w ∧ decPorts pol w = some p ∧
      classOfStatus p.status = some .doubleError ∧ t = s.withDec w p := by
  rcases readByte_cases pol o s with ⟨_, hr⟩ | ⟨w, hg, ⟨_, hr⟩ | ⟨p, hp, hr⟩⟩ <;> rw [hr] at h
  · cases h
  · cases h
  rcases acceptByte_cases o (s.withDec w p) with
    ⟨_, ha⟩ | ⟨_, ⟨_, ha⟩ | ⟨_, _, ha⟩⟩ | ⟨hc, ha⟩ | ⟨_, ha⟩ <;> rw [ha] at h <;> cases h
  exact ⟨w, p, hg, hp, hc, rfl⟩

/-! ### The loop of `read_file` -/

theorem readBytes_zero (pol : OorPolicy) (kind : FileKind) (o : Nat) (acc : List Byte) (s : State) :
    readBytes pol kind 0 o acc s = .next (s.withReply (.contents kind acc)) := rfl

theorem readBytes_of_clean {pol : OorPolicy} {o : Nat} {s t : State} {b : Byte} (h : readByte pol o s = .clean b t)
    (kind : FileKind) (n : Nat) (acc : List Byte) :
    readBytes pol kind (n + 1) o acc s = readBytes pol kind n (o + 1) (acc ++ [b]) t := by
  simp only [readBytes, h]

theorem readBytes_of_healed {pol : OorPolicy} {o : Nat} {s t : State} {b : Byte} (h : readByte pol o s = .healed b t)
    (kind : FileKind) (n : Nat) (acc : List Byte) :
    readBytes pol kind (n + 1) o acc s = readBytes pol kind n (o + 1) (acc ++ [b]) t := by
  simp only [readBytes, h]

theorem readBytes_of_abort {pol : OorPolicy} {o : Nat} {s t : State} (h : readByte pol o s = .abort t)
    (kind : FileKind) (n : Nat) (acc : List Byte) :
    readBytes pol kind (n + 1) o acc s = .next (t.withReply .disksCorrupted) := by
  simp only [readBytes, h]

theorem readBytes_of_stopped {pol : OorPolicy} {o : Nat} {s : State} {f : Fault} (h : readByte pol o s = .stopped f)
    (kind : FileKind) (n : Nat) (acc : List Byte) : readBytes pol kind (n + 1) o acc s = .fault f := by
  simp only [readBytes, h]

/-- What every byte's read and every reply keeps, a whole read keeps. -/
theorem readBytes_keeps {P : State → Prop} {pol : OorPolicy} {kind : FileKind} {lo hi : Nat}
    (hdec : ∀ s w p, decPorts pol w = some p → P s → P (s.withDec w p))
    (hrepair : ∀ s ds j o v, lo ≤ o → o < hi → diskWrite s.array.disks j o v = some ds → P s → P (s.withDisks ds))
    (hreply : ∀ s r, P s → P (s.withReply r))
    (n o : Nat) (acc : List Byte) (s t : State) (hlo : lo ≤ o) (hhi : o + n ≤ hi)
    (h : readBytes pol kind n o acc s = .next t) (hs : P s) : P t := by
  induction n generalizing o acc s with
  | zero =>
    rw [readBytes_zero] at h
    cases h
    exact hreply _ _ hs
  | succ n ih =>
    cases hr : readByte pol o s with
    | clean b u =>
      obtain ⟨w, p, _, hp, _, _, rfl⟩ := readByte_clean hr
      rw [readBytes_of_clean hr] at h
      exact ih (o + 1) _ _ (by omega) (by omega) h (hdec _ _ _ hp hs)
    | healed b u =>
      obtain ⟨w, p, ds, _, hp, _, hw, _, rfl⟩ := readByte_healed hr
      rw [readBytes_of_healed hr] at h
      exact ih (o + 1) _ _ (by omega) (by omega) h
        (hrepair _ _ _ _ _ (by omega) (by omega) hw (hdec _ _ _ hp hs))
    | abort u =>
      obtain ⟨w, p, _, hp, _, rfl⟩ := readByte_abort hr
      rw [readBytes_of_abort hr] at h
      cases h
      exact hreply _ _ (hdec _ _ _ hp hs)
    | stopped f => rw [readBytes_of_stopped hr] at h; cases h

end Sys2Proof.Machine
end

