-- ==== Sys2Proof/Laws/Positions.lean ====
section
/-!
SUPPORT. Position classes, searches and the walk: what the definitions of Machine/Operands.lean say in plain arithmetic,
and their values at this build's widths.
-/

namespace Sys2Proof.Machine

/-- A search over `0 .. n-1` that has an answer finds the least one. -/
theorem find?_range_least {n : Nat} {p : Nat → Bool} (h : ∃ r < n, p r = true) :
    ∃ r, (List.range n).find? p = some r ∧ p r = true ∧ r < n ∧ ∀ j < r, p j = false := by
  obtain ⟨r, hr, hp⟩ := h
  cases hf : (List.range n).find? p with
  | none =>
    rw [List.find?_eq_none] at hf
    exact absurd hp (hf r (by simpa using hr))
  | some q =>
    rw [List.find?_range_eq_some] at hf
    simp only [List.mem_range, Bool.not_eq_eq_eq_not] at hf
    exact ⟨q, rfl, hf.1, hf.2.1, fun j hj => by simpa using hf.2.2 j hj⟩

theorem pow2_iff (j : Nat) : pow2 j = true ↔ ∃ k, j = 2 ^ k := by
  simp only [pow2, Bool.and_eq_true, decide_eq_true_eq, beq_iff_eq]
  constructor
  · rintro ⟨-, h⟩; exact ⟨_, h.symm⟩
  · rintro ⟨k, rfl⟩; exact ⟨Nat.two_pow_pos k, by rw [Nat.log2_two_pow]⟩

theorem isPayload_iff (j : Nat) : isPayload j = true ↔ j ≠ 0 ∧ ¬ ∃ k, j = 2 ^ k := by
  unfold isPayload posClass
  rw [← pow2_iff]
  by_cases h : j = 0 <;> by_cases h' : pow2 j = true <;> simp [h, h']

theorem isPayload_two_pow (k : Nat) : isPayload (2 ^ k) = false := by
  rw [Bool.eq_false_iff]
  exact fun h => ((isPayload_iff _).mp h).2 ⟨k, rfl⟩

theorem dataIndex_succ (n : Nat) : dataIndex (n + 1) = dataIndex n + (isPayload n).toNat := by
  unfold dataIndex
  rw [List.range_succ, List.countP_append]
  cases h : isPayload n <;> simp [h]

/-! ### The walk -/

theorem mem_walk (M R j : Nat) : j ∈ walk M R ↔ 1 ≤ j ∧ j < 1 + M + R := by
  unfold walk
  rw [List.mem_range'_1]
  omega

theorem range_eq_walk (M R : Nat) : List.range (1 + M + R) = 0 :: walk M R := by
  unfold walk
  rw [List.range_eq_range', show 1 + M + R = (M + R) + 1 by omega, List.range'_succ]

/-- The positions a parity bit covers inside the word are the walked ones it covers. -/
theorem cover_eq_walk (M R k : Nat) : cover (1 + M + R) k = (walk M R).filter (covers k) := by
  unfold cover
  rw [range_eq_walk, List.filter_cons]
  simp [covers_eq_testBit]

/-! ### This build -/

theorem rmin_eight : rmin 8 = 4 := by decide

theorem cwWidth_eight : cwWidth 8 = 13 := by decide

theorem dpos_eight : (List.range 8).map dpos = [3, 5, 6, 7, 9, 10, 11, 12] := by decide

theorem cover_thirteen :
    (List.range 4).map (cover 13) =
      [[1, 3, 5, 7, 9, 11], [2, 3, 6, 7, 10, 11], [4, 5, 6, 7, 12], [8, 9, 10, 11, 12]] := by decide

end Sys2Proof.Machine
end

