-- ==== Sys2Proof/Laws/Encoder.lean ====
section
/-!
SUPPORT. What each step of `ENC` does to each bit, and that each step is linear (spec/40_encoder.md rule R54).
-/

namespace Sys2Proof.Machine

variable {N : Nat}

/-! ### Bit by bit -/

/-- After the first `K` rounds of step 2, the Hamming positions `2^k` with `k < K` hold the XOR of the placed bits they
cover, and every other position is as placed: the rounds do not depend on one another. -/
theorem getLsbD_fillRounds (M R K : Nat) (c : BitVec (1 + M + R)) (i : Nat) (hi : i < 1 + M + R) :
    ((List.range K).foldl
        (fun c k => setBit c (2 ^ k) (xorOver c ((walk M R).filter (covers k)))) c).getLsbD i
      = if ∃ k < K, i = 2 ^ k then xorOver c ((walk M R).filter (covers i.log2)) else c.getLsbD i := by
  induction K generalizing i with
  | zero => simp
  | succ K ih =>
    rw [List.range_succ, List.foldl_append, List.foldl_cons, List.foldl_nil]
    set cK := (List.range K).foldl
      (fun c k => setBit c (2 ^ k) (xorOver c ((walk M R).filter (covers k)))) c with hcK
    have hx : xorOver cK ((walk M R).filter (covers K)) = xorOver c ((walk M R).filter (covers K)) := by
      apply xorOver_congr
      intro j hj
      rw [List.mem_filter, mem_walk, covers_eq_testBit] at hj
      rw [ih j hj.1.2, if_neg]
      rintro ⟨k, hk, rfl⟩
      have hb := hj.2
      rw [Nat.testBit_two_pow] at hb
      simp only [decide_eq_true_eq] at hb
      omega
    rw [getLsbD_setBit, hx]
    by_cases h : 2 ^ K = i
    · subst h
      rw [if_pos ⟨rfl, hi⟩, if_pos ⟨K, by omega, rfl⟩, Nat.log2_two_pow]
    · rw [if_neg (fun h' => h h'.1), ih i hi]
      have : (∃ k < K + 1, i = 2 ^ k) ↔ (∃ k < K, i = 2 ^ k) := by
        constructor
        · rintro ⟨k, hk, rfl⟩
          refine ⟨k, ?_, rfl⟩
          by_contra hc
          exact h (by rw [show k = K by omega])
        · rintro ⟨k, hk, rfl⟩; exact ⟨k, by omega, rfl⟩
      simp only [this]

theorem getLsbD_placeData_two_pow {M : Nat} (d : BitVec M) (k : Nat) : (placeData N d).getLsbD (2 ^ k) = false := by
  simp [placeData, isPayload_two_pow]

/-- Steps 2 and 3 leave the payload positions as placed. -/
theorem getLsbD_encodeAt_payload (M R : Nat) (d : BitVec M) (j : Nat) (hj : j < 1 + M + R)
    (hp : isPayload j = true) : (encodeAt M R (1 + M + R) d).getLsbD j = d.getLsbD (dataIndex j) := by
  obtain ⟨h0, hn⟩ := (isPayload_iff j).mp hp
  rw [encodeAt, fillOverall, getLsbD_setBit, if_neg (fun h => h0 h.1.symm), fillHamming,
    getLsbD_fillRounds M R R _ j hj, if_neg (fun ⟨k, _, h⟩ => hn ⟨k, h⟩), placeData, getLsbD_wordOf]
  simp [hj, hp]

/-- Step 3 changes position 0 only. -/
theorem getLsbD_encodeAt_of_ne_zero (M R : Nat) (d : BitVec M) (j : Nat) (h0 : j ≠ 0) :
    (encodeAt M R N d).getLsbD j = (fillHamming M R (placeData N d)).getLsbD j := by
  rw [encodeAt, fillOverall, getLsbD_setBit, if_neg (fun h => h0 h.1.symm)]

/-! ### Linear -/

theorem placeData_xor {M : Nat} (a b : BitVec M) : placeData N (a ^^^ b) = placeData N a ^^^ placeData N b := by
  apply BitVec.eq_of_getLsbD_eq
  intro i hi
  rw [BitVec.getLsbD_xor]
  simp only [placeData, getLsbD_wordOf, hi, decide_true, Bool.true_and, BitVec.getLsbD_xor]
  cases isPayload i <;> simp

theorem setBit_xor (a b : BitVec N) (p : Nat) (u v : Bool) :
    setBit (a ^^^ b) p (u ^^ v) = setBit a p u ^^^ setBit b p v := by
  apply BitVec.eq_of_getLsbD_eq
  intro i hi
  rw [BitVec.getLsbD_xor]
  simp only [getLsbD_setBit]
  split <;> simp

end Sys2Proof.Machine
end

