-- ==== Sys2Proof/Laws/PerInstr.lean ====
section
/-!
SUPPORT. Facts about operations as syntax, one lemma per constructor.
-/

namespace Sys2Proof.Laws.PortWidth

/-- The word an operation puts on its port has exactly the port's width (rules R14, R15, R27). -/
def Statement (i : Instr) : Prop := (encode i).wellFormed = true

theorem enc (data : Data) : Statement (.enc data) := by
  simp [Statement, encode, PortWord.wellFormed, Port.width, bitsOfWord]

theorem dec (cw : Codeword) : Statement (.dec cw) := by
  simp [Statement, encode, PortWord.wellFormed, Port.width, bitsOfWord]

end Sys2Proof.Laws.PortWidth
end

