-- ==== Sys2Proof/Laws/Reads.lean ====
section
/-!
SUPPORT. Everything the loop of `read_file` can do, once, on a store of the lock-step form
(spec/42_array_environment.md rules R90 to R92; spec/70_reset_and_hazards.md rule R122).
-/

namespace Sys2Proof.Machine

/-- The rows of rule R66 as the array meets them: a byte, a position without a disk, or a double error. -/
theorem word_cases (w : Codeword) :
    ByteReadable w ∨ (overallParity w = true ∧ 13 ≤ syndrome 4 w) ∨
      (overallParity w = false ∧ syndrome 4 w ≠ 0) := by
  unfold ByteReadable
  cases overallParity w <;> simp <;> omega

/-- A readable word gives its byte, and the disks then gather `dec_cw_fixed` at its offset and nothing else changed. -/
theorem readByte_of_readable {o : Nat} {s : State} {w : Codeword} (hg : gather s.array.disks o = some w)
    (hw : ByteReadable w) :
    ∃ p t, decPorts Config.oorPolicy w = some p ∧
      (readByte Config.oorPolicy o s = .clean (byteOfBits p.data) t ∨
        readByte Config.oorPolicy o s = .healed (byteOfBits p.data) t) ∧
      gather t.array.disks o = some p.cwFixed ∧
      (∀ j k, k ≠ o → diskRead t.array.disks j k = diskRead s.array.disks j k) ∧
      t.array.disks.map List.length = s.array.disks.map List.length := by
  rcases hw with ⟨ho, hs⟩ | ⟨ho, hs⟩
  · have hp := decPorts_of_even_zero Config.oorPolicy ho hs
    exact ⟨_, _, hp, .inl ((readByte_of_ports hg hp).trans (acceptByte_of_noError rfl)), hg, fun _ _ _ => rfl, rfl⟩
  · have hp := decPorts_of_odd Config.oorPolicy ho hs
    have hbit : (diskRead s.array.disks (syndrome 4 w) o).isSome = true := by
      rw [gather_eq_some_iff.mp hg _ hs]; rfl
    have hd := (diskWrite_eq_some_iff (v := (flipBit w (syndrome 4 w)).getLsbD (syndrome 4 w))).mpr ⟨hbit, rfl⟩
    have ha := acceptByte_of_oneError (o := o)
      (s := s.withDec w ⟨1#2, BitVec.ofNat 4 (syndrome 4 w), extract 8 (flipBit w (syndrome 4 w)),
        flipBit w (syndrome 4 w)⟩) rfl
      (by simpa only [State.withDec_decOut, State.withDec_array, toNat_ofNat_syndrome] using hd)
    refine ⟨_, _, hp, .inr ((readByte_of_ports hg hp).trans ha), ?_, ?_, ?_⟩
    · refine gather_eq_some_iff.mpr fun j hj => ?_
      rw [State.withDisks_array_disks, diskRead_diskWrite hd]
      by_cases hjs : j = syndrome 4 w
      · rw [if_pos ⟨hjs, rfl⟩, hjs]
      · rw [if_neg (fun h => hjs h.1), gather_eq_some_iff.mp hg j hj, getLsbD_flipBit]
        simp [Ne.symm hjs]
    · intro j k hk
      rw [State.withDisks_array_disks, diskRead_diskWrite hd, if_neg (fun h => hk h.2)]
    · rw [State.withDisks_array_disks]; exact diskWrite_lengths hd

/-- Odd parity at a syndrome of 13 or more stops the read, where there are 13 disks. -/
theorem readByte_of_beyond {o : Nat} {s : State} {w : Codeword} (hlen : s.array.disks.length = 13)
    (hg : gather s.array.disks o = some w) (ho : overallParity w = true) (hs : 13 ≤ syndrome 4 w) :
    readByte Config.oorPolicy o s = .stopped .positionNamesNoDisk := by
  have hp := decPorts_of_odd_beyond ho hs
  have hnone : ∀ v, diskWrite s.array.disks (syndrome 4 w) o v = none := fun v => by
    simp only [diskWrite, diskRead, List.getElem?_eq_none (show s.array.disks.length ≤ syndrome 4 w by omega)]
  exact (readByte_of_ports hg hp).trans (acceptByte_of_no_disk rfl (by
    simpa only [State.withDec_decOut, State.withDec_array, toNat_ofNat_syndrome] using hnone _))

theorem readByte_of_double {o : Nat} {s : State} {w : Codeword} (hg : gather s.array.disks o = some w)
    (ho : overallParity w = false) (hs : syndrome 4 w ≠ 0) :
    ∃ p, readByte Config.oorPolicy o s = .abort (s.withDec w p) :=
  ⟨_, (readByte_of_ports hg (decPorts_of_even_nonzero Config.oorPolicy ho hs)).trans (acceptByte_of_doubleError rfl)⟩

/-- Disks whose lengths are those of a store of the form are of the form. -/
theorem wf_of_same_lengths {ds ds' : Memory} (hwf : ds.wf = true) (h : ds'.map List.length = ds.map List.length) :
    ds'.wf = true ∧ usedBytes ds' = usedBytes ds := by
  obtain ⟨h1, h2⟩ := (Memory.wf_iff ds).mp hwf
  refine wf_of_lengths (by simpa [h1] using congrArg List.length h) fun d hd => ?_
  have hm : d.length ∈ ds.map List.length := h ▸ List.mem_map_of_mem hd
  obtain ⟨d', hd', he⟩ := List.mem_map.mp hm
  rw [← he, h2 d' hd']

/-- Everything a read of written offsets can answer: the first `m` words are readable, and either that is all of them, or
the next is a double error, or the next names no disk. -/
theorem readBytes_cases (kind : FileKind) (n o : Nat) (acc : List Byte) (s : State)
    (hwf : s.array.disks.wf = true) (hr : o + n ≤ usedBytes s.array.disks) :
    ∃ m, m ≤ n ∧ (∀ k, o ≤ k → k < o + m → ∃ w, gather s.array.disks k = some w ∧ ByteReadable w) ∧
      ((m = n ∧ ∃ t bytes, readBytes Config.oorPolicy kind n o acc s = .next t ∧
          t.reply = some (.contents kind (acc ++ bytes)) ∧ bytes.length = n ∧
          BytesDecoded s o bytes ∧ RangeRepaired s t o n) ∨
       (m < n ∧ ∃ w t, gather s.array.disks (o + m) = some w ∧ overallParity w = false ∧ syndrome 4 w ≠ 0 ∧
          readBytes Config.oorPolicy kind n o acc s = .next t ∧ t.reply = some .disksCorrupted ∧
          RangeRepaired s t o m) ∨
       (m < n ∧ ∃ w, gather s.array.disks (o + m) = some w ∧ overallParity w = true ∧ 13 ≤ syndrome 4 w ∧
          readBytes Config.oorPolicy kind n o acc s = .fault .positionNamesNoDisk)) := by
  induction n generalizing o acc s with
  | zero =>
    exact ⟨0, le_refl 0, fun k _ _ => by omega, .inl ⟨rfl, _, [], rfl, by simp, rfl,
      fun k hk => absurd hk (Nat.not_lt_zero k), fun k _ _ => by omega, fun _ _ _ => rfl⟩⟩
  | succ n ih =>
    obtain ⟨w, hg⟩ := gather_of_wf hwf (show o < usedBytes s.array.disks by omega)
    rcases word_cases w with hw | ⟨ho, hs⟩ | ⟨ho, hs⟩
    · obtain ⟨p, u, hp, hb, hfix, hout, hlen⟩ := readByte_of_readable hg hw
      obtain ⟨hwf', hused⟩ := wf_of_same_lengths hwf hlen
      have hloop : readBytes Config.oorPolicy kind (n + 1) o acc s =
          readBytes Config.oorPolicy kind n (o + 1) (acc ++ [byteOfBits p.data]) u := by
        rcases hb with hb | hb
        · exact readBytes_of_clean hb _ _ _
        · exact readBytes_of_healed hb _ _ _
      have hgath : ∀ k, k ≠ o → gather u.array.disks k = gather s.array.disks k := fun k hk =>
        gather_congr fun j _ => hout j k hk
      have extend : ∀ {t m}, RangeRepaired u t (o + 1) m → RangeRepaired s t o (m + 1) := by
        intro t m ⟨hin, hrest⟩
        refine ⟨fun k h1 h2 => ?_, fun j k hk => (hrest j k (by omega)).trans (hout j k (by omega))⟩
        by_cases hk : k = o
        · subst hk
          exact ⟨w, p, hg, hp, (gather_congr fun j _ => hrest j k (by omega)).trans hfix⟩
        · obtain ⟨w', p', h3, h4, h5⟩ := hin k (by omega) (by omega)
          exact ⟨w', p', (hgath k hk) ▸ h3, h4, h5⟩
      obtain ⟨m, hm, hread, hcase⟩ := ih (o + 1) (acc ++ [byteOfBits p.data]) u hwf' (by omega)
      refine ⟨m + 1, by omega, fun k h1 h2 => ?_, ?_⟩
      · by_cases hk : k = o
        · subst hk; exact ⟨w, hg, hw⟩
        · rw [← hgath k hk]; exact hread k (by omega) (by omega)
      rw [hloop]
      rcases hcase with ⟨rfl, t, bytes, h1, h2, h3, h4, h5⟩ | ⟨hlt, w', t, h1, h2, h3, h4, h5, h6⟩ |
        ⟨hlt, w', h1, h2, h3, h4⟩
      · refine .inl ⟨rfl, t, byteOfBits p.data :: bytes, h1, by simpa using h2, by simp [h3], fun k hk => ?_, extend h5⟩
        cases k with
        | zero => exact ⟨w, p, hg, hp, rfl⟩
        | succ k =>
          obtain ⟨w', p', h6, h7, h8⟩ := h4 k (by simpa using hk)
          have he : o + 1 + k = o + (k + 1) := by omega
          rw [he, hgath _ (by omega)] at h6
          exact ⟨w', p', h6, h7, by simpa using h8⟩
      · have he : o + 1 + m = o + (m + 1) := by omega
        rw [he, hgath _ (by omega)] at h1
        exact .inr (.inl ⟨by omega, w', t, h1, h2, h3, h4, h5, extend h6⟩)
      · have he : o + 1 + m = o + (m + 1) := by omega
        rw [he, hgath _ (by omega)] at h1
        exact .inr (.inr ⟨by omega, w', h1, h2, h3, h4⟩)
    · refine ⟨0, by omega, fun k _ _ => by omega, .inr (.inr ⟨by omega, w, hg, ho, hs, ?_⟩)⟩
      exact readBytes_of_stopped (readByte_of_beyond ((Memory.wf_iff _).mp hwf).1 hg ho hs) _ _ _
    · obtain ⟨p, hb⟩ := readByte_of_double hg ho hs
      exact ⟨0, by omega, fun k _ _ => by omega, .inr (.inl ⟨by omega, w, _, hg, ho, hs,
        readBytes_of_abort hb _ _ _, rfl, fun k _ _ => by omega, fun _ _ _ => rfl⟩)⟩

/-- A read of a directory's record is the loop over its range. -/
theorem runRequest_readFile_of_lookup {name : String} {s : State} {r : FileRecord}
    (h : lookup Config.dupNamePolicy s.array.directory name = some r) :
    runRequest (.readFile name) s =
      readBytes Config.oorPolicy r.kind (r.endPos - r.startPos) r.startPos [] s := by
  simp only [runRequest, execReadFile, readFileWith, h]

theorem runRequest_readFile_of_absent {name : String} {s : State}
    (h : lookup Config.dupNamePolicy s.array.directory name = none) :
    runRequest (.readFile name) s = .next (s.withReply .notFound) := by
  simp only [runRequest, execReadFile, readFileWith, h]

/-- What a lookup returns is in the directory. -/
theorem mem_of_lookup {dup : DupNamePolicy} {dir : List FileRecord} {name : String} {r : FileRecord}
    (h : lookup dup dir name = some r) : r ∈ dir ∧ r.name = name := by
  cases dup <;> simp only [lookup] at h <;>
    exact ⟨by simpa using List.mem_of_find?_eq_some h, by simpa using List.find?_some h⟩

end Sys2Proof.Machine
end

