-- ==== Sys2Proof/Tests/Slice0.lean ====
section
/-!
SUPPORT. The model's own tests.  Every expected value is taken from the spec's worked examples and tables
(spec/40_encoder.md rules R54, R59; spec/41_decoder.md rule R71; spec/95_test_vectors.md) or worked out by hand from
a rule; the comment of each test says which.  The second half shows, for the statements with hypotheses, concrete states
and operands that meet them.
-/

namespace Sys2Proof.Tests

open Sys2Proof Sys2Proof.Machine

/-- The word a bit string writes, element 0 leftmost (rule R6). -/
def word (n : Nat) (t : String) : BitVec n := wordOfBits n ((bitsOfText t).getD [])

/-- The next state, where there is one. -/
def nextOf (o : Host.Outcome State Fault Refusal) : Option State :=
  match o with
  | .next t => some t
  | .fault _ => none
  | .refused _ => none

/-- The fault, where there is one. -/
def faultOf (o : Host.Outcome State Fault Refusal) : Option Fault :=
  match o with
  | .next _ => none
  | .fault f => some f
  | .refused _ => none

/-- The refusal, where there is one. -/
def refusalOf (o : Host.Outcome State Fault Refusal) : Option Refusal :=
  match o with
  | .next _ => none
  | .fault _ => none
  | .refused r => some r

/-- The start with an array of `disk_size = n`. -/
def fresh (n : Nat) : State := State.reset.withArray (constructArray n)

/-- The state after a request, on a state whose request answers one. -/
def after (r : Request) (s : State) : State := (nextOf (runRequest r s)).getD s

/-- The end state of the write of program P1: the file "Greeting" = bytes of "Hi". -/
def hi : State := after (.writeFile [0x48#8, 0x69#8] .text "Greeting") (fresh 16)

/-! ### WellFormed: one ill-formed term for each check -/

theorem test_short_payload_ill_formed :
    PortWord.wellFormed ⟨.encData, List.replicate 7 false⟩ = false := by decide

theorem test_long_codeword_ill_formed :
    PortWord.wellFormed ⟨.decCw, List.replicate 14 false⟩ = false := by decide

theorem test_flip_position_ill_formed : Request.wellFormed (.flip 0#13 13) = false := by decide

theorem test_drive_ill_formed : Request.wellFormed (.drive ⟨.decCw, []⟩) = false := by decide

theorem test_well_formed_requests :
    Request.wellFormed (.drive ⟨.encData, List.replicate 8 true⟩) = true ∧
    Request.wellFormed (.flip 0#13 12) = true := by decide

/-! ### Decoding, by words written out bit by bit -/

/-- Rule R23: byte 0x80 has only its most significant bit set, which is data bit 0, wire 0. -/
theorem test_decode_enc : decode ⟨.encData, [true, false, false, false, false, false, false, false]⟩
    = .ok (.enc (bitsOfByte 0x80#8)) := by decide

/-- Rule R39: one bit at position 12, the last wire of `dec_cw`. -/
theorem test_decode_dec : decode ⟨.decCw, List.replicate 12 false ++ [true]⟩
    = .ok (.dec (BitVec.ofNat 13 (2 ^ 12))) := by decide

/-- The table numbers wire `i` as bit `i`; 16 bits hold the 13 of `dec_cw`. -/
theorem test_table_words :
    decodeTableWord 8 1 = some (.enc (bitsOfByte 0x80#8)) ∧
    decodeTableWord 16 (2 ^ 12) = some (.dec (BitVec.ofNat 13 (2 ^ 12))) ∧
    decodeTableWord 16 (2 ^ 13) = none := by decide

/-! ### ENC -/

/-- The worked example of rule R54, byte 0x48. -/
theorem test_enc_worked_example :
    (nextOf (exec (.enc (word 8 "01001000")) State.reset)).map State.encCw
      = some (word 13 "0000110011000") := by decide

/-- Rule R59: all ones, and data bit 3, whose position three parity bits cover. -/
theorem test_enc_corner_cases :
    encWord (word 8 "11111111") = word 13 "0111011101111" ∧
    encWord (word 8 "00010000") = word 13 "0110100100000" := by decide

/-! ### DEC -/

/-- The worked example of rule R71: position 6 flipped. -/
theorem test_dec_worked_example :
    (nextOf (exec (.dec (word 13 "0000111011000")) State.reset)).map State.decOut
      = some ⟨1#2, 6#4, word 8 "01001000", word 13 "0000110011000"⟩ := by decide

/-- spec/95_test_vectors.md section 5, rows 3 and 4: a double error, and a position the word does not have. -/
theorem test_dec_double_and_beyond :
    (nextOf (exec (.dec (word 13 "0000111010000")) State.reset)).map State.decOut
      = some ⟨2#2, 0#4, 0#8, word 13 "0000111010000"⟩ ∧
    (nextOf (exec (.dec (word 13 "0100010001000")) State.reset)).map State.decOut
      = some ⟨1#2, 13#4, word 8 "01001000", word 13 "0100010001000"⟩ := by decide

/-- Rule R72: the same word has no result under the other policy. -/
theorem test_dec_fault_policy :
    faultOf (execDecWith .fault (word 13 "0100010001000") State.reset) = some .syndromeNamesNoPosition := by decide

/-! ### The family -/

/-- Rule R5, the rows up to 12, and the first position table of rule R37. -/
theorem test_widths :
    (List.range 13).map rmin = [0, 2, 3, 3, 3, 4, 4, 4, 4, 4, 4, 4, 5] ∧
    (List.range 12).map dpos = [3, 5, 6, 7, 9, 10, 11, 12, 13, 14, 15, 17] ∧
    (List.range 18).filter (fun n => (payloadOfWidth n).isNone) = [0, 2, 3, 5, 9, 17] := by decide

/-- spec/95_test_vectors.md section 2.2, `M = 4` and `M = 0`. -/
theorem test_other_widths :
    textOfWord (familyEnc 4 (word 4 "1011")) = "00110011" ∧ textOfWord (familyEnc 0 0#0) = "0" := by decide

/-- spec/41_decoder.md rule R69 at `M = 0`: the one-bit word "1" is OneError at position 0. -/
theorem test_width_zero_decoder :
    (decodeAt .fault 0 0 1#1) = some (.oneError 0#0 0, 0#1) := by decide

/-! ### Bytes, text and pseudo-operations -/

/-- spec/95_test_vectors.md section 4. -/
theorem test_bytes :
    textOfBits (bitsOfBytes [0x48#8, 0x69#8]) = "0100100001101001" ∧
    bytesOfBits (bitsOfBytes [0x48#8, 0x69#8]) = some [0x48#8, 0x69#8] ∧ bytesOfBits [true] = none := by decide

/-- spec/95_test_vectors.md section 3.2, row 6, as a line of rule R52. -/
theorem test_dec_text :
    textOfDec .reportNoFlip (word 13 "0000111011000")
      = some "DEC 0000111011000 -> OneError pos=6 data=01001000 fixed=0000110011000" := by decide

/-- Rule R53: the byte of a corrected word. -/
theorem test_decb :
    (after (.decb (word 13 "0000111011000")) State.reset).reply = some (.byte 0x48#8) := by decide

/-- Rule R52: `FLIP` takes the codeword of 0x48 to the word of row 6, and refuses position 13. -/
theorem test_flip :
    (after (.flip (word 13 "0000110011000") 6) State.reset).reply = some (.flipped (word 13 "0000111011000")) ∧
    refusalOf (runRequest (.flip 0#13 13) State.reset) = some (.flipOutOfRange 13) := by decide

/-! ### The disk array: programs P1 to P6 of spec/95_test_vectors.md -/

/-- P1, end state of the write: the disks, the record, the free space. -/
theorem test_write :
    hi.array.disks.map textOfBits
      = ["00", "00", "01", "00", "11", "11", "01", "00", "10", "11", "00", "00", "01"] ∧
    hi.array.freeSpace = 206 ∧ hi.array.directory = [⟨"Greeting", 0, 2, 2, .text⟩] := by decide

/-- P2, step 2: one disk corrupted, the read heals it. -/
theorem test_read_heals :
    (after (.readFile "Greeting") (after (.corruptDisk 7) hi)).reply
      = some (.contents .text [0x48#8, 0x69#8]) ∧
    (after (.readFile "Greeting") (after (.corruptDisk 7) hi)).array = hi.array := by decide

/-- P3: two disks corrupted. -/
theorem test_read_aborts :
    (after (.readFile "Greeting") (after (.corruptDisk 10) (after (.corruptDisk 7) hi))).reply
      = some .disksCorrupted := by decide

/-- P6: three disks corrupted, the position names no disk. -/
theorem test_read_stops :
    faultOf (runRequest (.readFile "Greeting")
      (after (.corruptDisk 10) (after (.corruptDisk 7) (after (.corruptDisk 3) hi))))
      = some .positionNamesNoDisk := by decide

/-- Rule R52: the line of a `FLIP`; beyond the word there is none (log entry 20). -/
theorem test_flip_text :
    textOfFlip (word 13 "0000110011000") 6 = some "FLIP 0000110011000, 6 -> 0000111011000" ∧
    textOfFlip 0#13 13 = none := by decide

/-- P5: 13 bytes do not fit in 13, 12 do; an unknown name. -/
theorem test_capacity :
    (after (.writeFile (List.replicate 13 0#8) .text "A") (fresh 1)).reply = some .notEnoughSpace ∧
    (after (.writeFile (List.replicate 12 0#8) .text "A") (fresh 1)).reply = some .written ∧
    (after (.readFile "Nothing") (fresh 1)).reply = some .notFound := by decide

/-- Rule R93 and P4: numbers 0 and 14 are out of range. -/
theorem test_corrupt_out_of_range :
    (after (.corruptDisk 14) hi).reply = some (.inRange false) ∧
    (after (.corruptDisk 0) hi).reply = some (.inRange false) ∧
    (after (.corruptDisk 14) hi).array = hi.array := by decide

/-! ### Witnesses: states and operands that meet the hypotheses of the statements -/

theorem fresh_inv : StateInv (fresh 16) where
  ports := ⟨by decide, by decide⟩
  lockStep := by decide
  capacity := ⟨by decide, by decide⟩
  directory := by unfold DirectorySound; decide

theorem hi_inv : StateInv hi where
  ports := ⟨by decide, by decide⟩
  lockStep := by decide
  capacity := ⟨by decide, by decide⟩
  directory := by unfold DirectorySound; decide

/-- `hi` with one disk corrupted, with two, with three. -/
def oneBad : State := after (.corruptDisk 7) hi
def twoBad : State := after (.corruptDisk 10) oneBad
def threeBad : State := after (.corruptDisk 3) twoBad

theorem oneBad_inv : StateInv oneBad where
  ports := ⟨by decide, by decide⟩
  lockStep := by decide
  capacity := ⟨by decide, by decide⟩
  directory := by unfold DirectorySound; decide

/-- `oneBad` with a second bit of the second byte flipped: the first word is one flip from its codeword, the second two. -/
def mixed : State := oneBad.withDisks ((diskWrite oneBad.array.disks 9 1 false).getD [])

theorem mixed_inv : StateInv mixed where
  ports := ⟨by decide, by decide⟩
  lockStep := by decide
  capacity := ⟨by decide, by decide⟩
  directory := by unfold DirectorySound; decide

theorem threeBad_inv : StateInv threeBad where
  ports := ⟨by decide, by decide⟩
  lockStep := by decide
  capacity := ⟨by decide, by decide⟩
  directory := by unfold DirectorySound; decide

/-- O1, O3: a port word that decodes, at the head of a queue. -/
theorem witness_decoded_request :
    ((fresh 1).withRequests [.drive ⟨.encData, List.replicate 8 true⟩, .readFile "A"]).requests = .drive ⟨.encData, List.replicate 8 true⟩ :: [.readFile "A"] ∧
    decode ⟨.encData, List.replicate 8 true⟩ = .ok (.enc 255#8) := by decide

/-- O4: table words at both ends of both ports' ranges. -/
theorem witness_table_words :
    decodeTableWord 8 0 = some (.enc 0#8) ∧ decodeTableWord 8 255 = some (.enc 255#8) ∧
    decodeTableWord 16 0 = some (.dec 0#13) ∧ decodeTableWord 16 8191 = some (.dec 8191#13) := by decide

/-- O5: a word of its width and words one wire too short and too long, on each port. -/
theorem witness_port_words :
    (PortWord.mk .encData (List.replicate 8 true)).bits.length = Port.width .encData ∧
    (PortWord.mk .decCw (List.replicate 13 true)).bits.length = Port.width .decCw ∧
    (PortWord.mk .encData (List.replicate 7 true)).bits.length ≠ Port.width .encData ∧
    (PortWord.mk .decCw (List.replicate 14 true)).bits.length ≠ Port.width .decCw := by decide

/-- O6: a step that takes a request, and a state with none. -/
theorem witness_queue :
    (nextOf (step (hi.withRequests [.corruptDisk 1, .encb 0#8]))).map State.requests = some [.encb 0#8] ∧
    hi.requests = [] := by decide

/-- O7, O8: `M = 0` and `M = 1`, the widths 0, 2 and 13. -/
theorem witness_widths :
    rmin 0 = 0 ∧ rmin 1 = 2 ∧ 1 < rmin 1 ∧ payloadOfWidth 0 = none ∧ payloadOfWidth 2 = none ∧
    payloadOfWidth 13 = some 8 := by decide

/-- O9, O10: payload positions at the ends of this build's word, and a Hamming position. -/
theorem witness_positions :
    isPayload 3 = true ∧ isPayload 12 = true ∧ 12 < cwWidth 8 ∧ 7 < 8 ∧ 3 < rmin 8 ∧ isPayload 8 = false := by decide

/-- O12, O18: both operations answer a next state. -/
theorem witness_exec_next :
    (nextOf (exec (.enc 255#8) hi)).isSome = true ∧ (nextOf (exec (.dec 8191#13) hi)).isSome = true := by decide

/-- O15: two payloads that differ. -/
theorem witness_distinct_payloads : (0#8 : BitVec 8) ≠ 1#8 := by decide

/-- O17, O19 to O22, O32, O33: a word of each row of rule R66, and of odd parity at the syndromes 0, 12, 13 and 15. -/
theorem witness_words :
    (overallParity (word 13 "0000110011000") = false ∧ syndrome 4 (word 13 "0000110011000") = 0) ∧
    (overallParity (word 13 "1000110011000") = true ∧ syndrome 4 (word 13 "1000110011000") = 0) ∧
    (overallParity (word 13 "0000110011001") = true ∧ syndrome 4 (word 13 "0000110011001") = 12) ∧
    (overallParity (word 13 "0100010001000") = true ∧ syndrome 4 (word 13 "0100010001000") = 13) ∧
    (overallParity (word 13 "0001010001000") = true ∧ syndrome 4 (word 13 "0001010001000") = 15) ∧
    (overallParity (word 13 "1100110011000") = false ∧ syndrome 4 (word 13 "1100110011000") = 1) := by decide

/-- O19: a result under each policy. -/
theorem witness_results :
    (decodeAt .fault 8 4 (word 13 "0000110011001")).isSome = true ∧
    (decodeAt .reportNoFlip 8 4 (word 13 "0100010001000")).isSome = true := by decide

/-- O24: positions of a flip set at both ends of the word. -/
theorem witness_flip_set : ∀ p ∈ [0, 12], p < cwWidth 8 := by decide

/-- O26, O27, O28, O36, O37: positions 0 and 12 are positions and differ, and 13 is none. -/
theorem witness_flip_positions : 0 < 13 ∧ 12 < 13 ∧ (0 : Nat) ≠ 12 ∧ 13 ≤ 13 ∧ 12 < cwWidth 8 := by decide

/-- O29: a contract input of each kind. -/
theorem witness_contract_inputs :
    ContractInput (word 13 "0000110011000") ∧ ContractInput (word 13 "0000110011001") ∧
    ContractInput (word 13 "1000110011001") :=
  ⟨⟨word 8 "01001000", [], by decide, by decide, by decide, by decide⟩,
   ⟨word 8 "01001000", [12], by decide, by decide, by decide, by decide⟩,
   ⟨word 8 "01001000", [0, 12], by decide, by decide, by decide, by decide⟩⟩

/-- O30: an odd set, an even set with XOR 0 and an even set with XOR not 0 (spec/95_test_vectors.md section 3.4). -/
theorem witness_flip_sets :
    ([1, 4, 8] : List Nat).Nodup ∧ (∀ p ∈ [1, 4, 8], p < 13) ∧
    ([0, 1, 2, 3] : List Nat).Nodup ∧ (∀ p ∈ [0, 1, 2, 3], p < 13) ∧ [0, 1, 2, 3].foldl (· ^^^ ·) 0 = 0 ∧
    ([3, 5, 6, 7] : List Nat).Nodup ∧ (∀ p ∈ [3, 5, 6, 7], p < 13) ∧ [3, 5, 6, 7].foldl (· ^^^ ·) 0 ≠ 0 := by decide

/-- O31: three distinct positions whose XOR is a position. -/
theorem witness_three_flips : (0 : Nat) ≠ 1 ∧ (0 : Nat) ≠ 12 ∧ (1 : Nat) ≠ 12 ∧ 0 ^^^ 1 ^^^ 3 < 13 ∧ 3 < 13 := by decide

/-- O40: the free space just above and just equal to the number of bytes, and a construction. -/
theorem witness_capacity :
    (List.replicate 12 (0#8 : Byte)).length < (fresh 1).array.freeSpace ∧
    (fresh 1).array.freeSpace ≤ (List.replicate 13 (0#8 : Byte)).length ∧
    (nextOf (runRequest (.construct 1) hi)).isSome = true := by decide

/-- O41: a store of the form with room for a write. -/
theorem witness_write : hi.array.disks.wf = true ∧ [(1#8 : Byte)].length < hi.array.freeSpace ∧
    [(1#8 : Byte)][0]? = some 1#8 ∧ 0 < usedBytes hi.array.disks := by decide

/-- O42: a name no record has, a name a record has, and its read. -/
theorem witness_names :
    (∀ r ∈ hi.array.directory, r.name ≠ "Nothing") ∧ hi.array.directory.any (fun r => r.name == "Greeting") = true ∧
    (nextOf (runRequest (.readFile "Greeting") hi)).isSome = true := by decide

/-- O43: a record behind one of another name, and one of the same name behind one of it. -/
theorem witness_lookup :
    (∀ q ∈ [FileRecord.mk "B" 0 0 0 .text], q.name ≠ "A") ∧
    lookup .firstMatch [⟨"A", 0, 1, 1, .text⟩, ⟨"A", 1, 2, 1, .text⟩] "A" = some ⟨"A", 0, 1, 1, .text⟩ ∧
    lookup .lastShadows [⟨"A", 0, 1, 1, .text⟩, ⟨"A", 1, 2, 1, .text⟩] "A" = some ⟨"A", 1, 2, 1, .text⟩ ∧
    lookup .rejectDuplicates [⟨"B", 0, 1, 1, .text⟩, ⟨"A", 1, 2, 1, .text⟩] "A" = some ⟨"A", 1, 2, 1, .text⟩ := by
  decide

/-- O57: no room, room with the name taken, room with a new name, each under rejection. -/
theorem witness_write_policies :
    (nextOf (writeFileWith .rejectDuplicates (List.replicate 13 0#8) .text "A" (fresh 1))).map State.reply
      = some (some .notEnoughSpace) ∧
    (nextOf (writeFileWith .rejectDuplicates [0#8] .text "Greeting" hi)).map State.reply
      = some (some .duplicateName) ∧
    (nextOf (writeFileWith .rejectDuplicates [0#8] .text "New" hi)).map State.reply = some (some .written) := by decide

/-- O44, O46: a read that changes stored bits: at each offset the bit of disk 6, and no other. -/
theorem witness_repair :
    (nextOf (runRequest (.readFile "Greeting") oneBad)).isSome = true ∧
    diskRead (after (.readFile "Greeting") oneBad).array.disks 6 0 ≠ diskRead oneBad.array.disks 6 0 ∧
    diskRead (after (.readFile "Greeting") oneBad).array.disks 5 0 = diskRead oneBad.array.disks 5 0 := by decide

/-- O46: a step whose request corrupts a disk changes a stored bit. -/
theorem witness_injection :
    (nextOf (step (hi.withRequests [.corruptDisk 1]))).isSome = true ∧
    diskRead hi.array.disks 0 0 = some false ∧
    (nextOf (step (hi.withRequests [.corruptDisk 1]))).map (fun t => diskRead t.array.disks 0 0)
      = some (some true) := by decide

/-- O45: the disk numbers at both ends of the range and beyond them. -/
theorem witness_disk_numbers : (1 ≤ 1 ∧ 1 ≤ 13) ∧ (1 ≤ 13 ∧ 13 ≤ 13) ∧ ¬ (1 ≤ 0 ∧ 0 ≤ 13) ∧ ¬ (1 ≤ 14 ∧ 14 ≤ 13) := by
  decide

/-- O47 to O49: a state of the invariant with room and a new name, and two disk numbers. -/
theorem witness_new_file :
    StateInv hi ∧ [(7#8 : Byte)].length < hi.array.freeSpace ∧ (∀ r ∈ hi.array.directory, r.name ≠ "New") ∧
    (1 : Nat) ≤ 1 ∧ (1 : Nat) ≤ 13 ∧ (13 : Nat) ≤ 13 ∧ (1 : Nat) ≠ 13 :=
  ⟨hi_inv, by decide, by decide, by decide, by decide, by decide, by decide⟩

/-- O50, O56: a read of the invariant's state that succeeds with a repair. -/
theorem witness_successful_read :
    StateInv oneBad ∧ (nextOf (runRequest (.readFile "Greeting") oneBad)).map State.reply
      = some (some (.contents .text [0x48#8, 0x69#8])) :=
  ⟨oneBad_inv, by decide⟩

/-- O55: a read that repairs the first byte and aborts at the second; the repair stays. -/
theorem witness_aborted_read :
    StateInv mixed ∧
    (nextOf (runRequest (.readFile "Greeting") mixed)).map State.reply = some (some .disksCorrupted) ∧
    gather mixed.array.disks 0 = some (word 13 "0000111011000") ∧
    gather (after (.readFile "Greeting") mixed).array.disks 0 = some (word 13 "0000110011000") :=
  ⟨mixed_inv, by decide, by decide, by decide⟩

/-- O51: a file whose two stored words are contract inputs, one flip each. -/
theorem witness_contract_file :
    StateInv oneBad ∧
    lookup Config.dupNamePolicy oneBad.array.directory "Greeting" = some ⟨"Greeting", 0, 2, 2, .text⟩ ∧
    ∀ o, 0 ≤ o → o < 2 → ∃ w, gather oneBad.array.disks o = some w ∧ ContractInput w := by
  refine ⟨oneBad_inv, by decide, fun o _ ho => ?_⟩
  obtain rfl | rfl : o = 0 ∨ o = 1 := by omega
  · exact ⟨word 13 "0000111011000", by decide, word 8 "01001000", [6], by decide, by decide, by decide, by decide⟩
  · exact ⟨word 13 "0010110001001", by decide, word 8 "01101001", [6], by decide, by decide, by decide, by decide⟩

/-- O53: a step from a state of the invariant. -/
theorem witness_step : StateInv hi ∧ (nextOf (step hi)).isSome = true := ⟨hi_inv, by decide⟩

/-- O54: a state of the invariant whose step faults, and one whose step is refused. -/
theorem witness_stops :
    StateInv threeBad ∧
    faultOf (step (threeBad.withRequests [.readFile "Greeting"])) = some .positionNamesNoDisk ∧
    refusalOf (step (threeBad.withRequests [.drive ⟨.decCw, []⟩])) = some (.wrongWidth .decCw 0) ∧
    Request.wellFormed (.drive ⟨.decCw, []⟩) = false :=
  ⟨threeBad_inv, by decide, by decide, by decide⟩

/-- O54: the same state meets the condition of the fault at the first offset of the range. -/
theorem witness_stop_condition :
    lookup Config.dupNamePolicy threeBad.array.directory "Greeting" = some ⟨"Greeting", 0, 2, 2, .text⟩ ∧
    (gather threeBad.array.disks 0).map (fun w => (overallParity w, decide (13 ≤ syndrome 4 w)))
      = some (true, true) := by decide

end Sys2Proof.Tests
end

/-!
The codec of every payload width: its widths and positions in plain arithmetic, what a codeword and its flips show
to the decoder, and the statements of spec/00_scope.md about them.
-/

namespace Sys2Proof.Machine

/-! ### The parity count (rules R3, R5) -/

/-- The two halves of "least `r` with `M + r + 1 <= 2^r`" (rule R3). -/
theorem rmin_spec (M : Nat) :
    M + rmin M + 1 ≤ 2 ^ rmin M ∧ ∀ r < rmin M, 2 ^ r < M + r + 1 := by
  have hfits : M + (M + 1) + 1 ≤ 2 ^ (M + 1) := by
    have := Nat.lt_two_pow_self (n := M)
    rw [pow_succ]
    omega
  obtain ⟨r, hfind, hr, -, hleast⟩ := find?_range_least (n := M + 2) (p := fun r => M + r + 1 ≤ 2 ^ r)
    ⟨M + 1, by omega, decide_eq_true hfits⟩
  have hrmin : rmin M = r := by rw [rmin, hfind, Option.getD_some]
  rw [hrmin]
  exact ⟨of_decide_eq_true hr, fun j hj => not_le.mp (of_decide_eq_false (hleast j hj))⟩

theorem rmin_le_iff (M r : Nat) : rmin M ≤ r ↔ M + r + 1 ≤ 2 ^ r := by
  obtain ⟨hfits, hleast⟩ := rmin_spec M
  constructor
  · intro h
    induction r, h using Nat.le_induction with
    | base => exact hfits
    | succ r _ ih =>
      have := Nat.two_pow_pos r
      rw [pow_succ]
      omega
  · intro h
    by_contra hlt
    have := hleast r (by omega)
    omega

theorem rmin_eq_succ_iff (M r : Nat) : rmin M = r + 1 ↔ 2 ^ r < M + r + 1 ∧ M + (r + 1) + 1 ≤ 2 ^ (r + 1) := by
  rw [← rmin_le_iff, ← not_le, ← rmin_le_iff]
  omega

theorem rmin_eq_zero_iff (M : Nat) : rmin M = 0 ↔ M = 0 := by
  rw [← Nat.le_zero, rmin_le_iff, pow_zero]
  omega

theorem cwWidth_le_two_pow (M : Nat) : cwWidth M ≤ 2 ^ rmin M := by
  have := (rmin_spec M).1
  unfold cwWidth
  omega

/-- Every Hamming position lies inside the word (rule R36). -/
theorem two_pow_lt_cwWidth {M k : Nat} (hk : k < rmin M) : 2 ^ k < cwWidth M := by
  have := (rmin_spec M).2 k hk
  unfold cwWidth
  omega

theorem two_pow_rmin_lt (M : Nat) : 2 ^ rmin M < 2 * cwWidth M := by
  cases hr : rmin M with
  | zero =>
    rw [pow_zero, cwWidth]
    omega
  | succ r =>
    have := two_pow_lt_cwWidth (M := M) (k := r) (by omega)
    rw [pow_succ]
    omega

/-! ### Payload positions (rules R36, R37, R41) -/

theorem dataIndex_mono : Monotone dataIndex :=
  monotone_nat_of_le_succ fun n => by rw [dataIndex_succ]; exact Nat.le_add_right _ _

/-- Below `n` every position is a payload position, except 0 and the powers of two. -/
theorem dataIndex_add_of_two_pow {n r : Nat} (hle : n ≤ 2 ^ r) (hlt : 2 ^ r < 2 * n) : dataIndex n + r + 1 = n := by
  induction n generalizing r with
  | zero => omega
  | succ n ih =>
    rw [dataIndex_succ]
    by_cases hr : 2 ^ r < 2 * n
    · have hpay : isPayload n = true := by
        refine (isPayload_iff n).mpr ⟨by omega, ?_⟩
        rintro ⟨k, rfl⟩
        have hkr : k < r := (Nat.pow_lt_pow_iff_right (by decide)).mp (by omega : 2 ^ k < 2 ^ r)
        have : 2 ^ (k + 1) ≤ 2 ^ r := Nat.pow_le_pow_right (by decide) hkr
        rw [pow_succ] at this
        omega
      have := ih (by omega) hr
      rw [hpay, Bool.toNat_true]
      omega
    · cases r with
      | zero =>
        obtain rfl : n = 0 := by omega
        rfl
      | succ r =>
        rw [pow_succ] at hle hlt hr
        obtain rfl : n = 2 ^ r := by omega
        have := ih (r := r) le_rfl (by omega)
        rw [isPayload_two_pow, Bool.toNat_false]
        omega

/-- A codeword has exactly `M` payload positions (rule R36). -/
theorem dataIndex_cwWidth (M : Nat) : dataIndex (cwWidth M) = M := by
  have := dataIndex_add_of_two_pow (cwWidth_le_two_pow M) (two_pow_rmin_lt M)
  unfold cwWidth at *
  omega

/-- Entry `i` of the payload positions below `n` is the payload position with `i` others before it. -/
theorem getD_payloads {n i : Nat} (hi : i < dataIndex n) :
    isPayload (((List.range n).filter isPayload).getD i 0) = true ∧
    dataIndex (((List.range n).filter isPayload).getD i 0) = i := by
  induction n with
  | zero => exact absurd hi (Nat.not_lt_zero i)
  | succ n ih =>
    have hlen : ((List.range n).filter isPayload).length = dataIndex n := List.countP_eq_length_filter.symm
    rw [dataIndex_succ] at hi
    rw [List.range_succ, List.filter_append]
    by_cases h : i < dataIndex n
    · rw [List.getD_append _ _ _ _ (by omega)]
      exact ih h
    · cases hpay : isPayload n with
      | false => rw [hpay] at hi; exact absurd hi h
      | true =>
        rw [hpay, Bool.toNat_true] at hi
        obtain rfl : i = dataIndex n := by omega
        rw [List.getD_append_right _ _ _ _ (by omega), hlen, Nat.sub_self, List.filter_singleton, hpay]
        exact ⟨hpay, rfl⟩

/-- The search bound of `dpos` suffices: every odd position from 3 on is a payload position. -/
theorem lt_dataIndex_bound (i : Nat) : i < dataIndex (2 * i + 4) := by
  induction i with
  | zero => decide
  | succ i ih =>
    have hodd : isPayload (2 * i + 5) = true := by
      refine (isPayload_iff _).mpr ⟨by omega, ?_⟩
      rintro ⟨_ | k, hk⟩
      · omega
      · rw [pow_succ] at hk; omega
    have hstep := dataIndex_succ (2 * i + 5)
    have := dataIndex_mono (show 2 * i + 4 ≤ 2 * i + 5 by omega)
    rw [hodd, Bool.toNat_true] at hstep
    rw [show 2 * (i + 1) + 4 = 2 * i + 5 + 1 by omega, hstep]
    omega

@[simp] theorem isPayload_dpos (i : Nat) : isPayload (dpos i) = true := (getD_payloads (lt_dataIndex_bound i)).1

@[simp] theorem dataIndex_dpos (i : Nat) : dataIndex (dpos i) = i := (getD_payloads (lt_dataIndex_bound i)).2

/-- Every data bit falls inside the word. -/
theorem dpos_lt_cwWidth {M i : Nat} (hi : i < M) : dpos i < cwWidth M := by
  by_contra h
  have := dataIndex_mono (not_lt.mp h)
  rw [dataIndex_cwWidth, dataIndex_dpos] at this
  omega

/-! ### A codeword passes every check (rule R57) -/

theorem xorOver_setBit {N : Nat} (w : BitVec N) (p : Nat) (v : Bool) (hp : p < N) {S : List Nat} (hS : S.Nodup)
    (hmem : p ∈ S) : xorOver (setBit w p v) S = (xorOver w S ^^ w.getLsbD p ^^ v) := by
  unfold setBit
  split
  case isTrue h => rw [h, Bool.xor_assoc, Bool.xor_self, Bool.xor_false]
  case isFalse h =>
    have hv : v = !w.getLsbD p := by revert h; cases w.getLsbD p <;> cases v <;> decide
    rw [xorOver_flipBit w p hp hS, hv]
    simp [hmem]

/-- Step 3 of rule R54 makes the overall parity even. -/
theorem overallParity_fillOverall (M R : Nat) (c : BitVec (1 + M + R)) :
    overallParity (fillOverall M R c) = false := by
  rw [overallParity, fillOverall, xorOver_setBit _ _ _ (by omega) List.nodup_range (by simp), range_eq_walk,
    xorOver_cons]
  cases c.getLsbD 0 <;> cases xorOver c (walk M R) <;> rfl

/-- Step 3 leaves every check as step 2 made it: no check covers position 0. -/
theorem check_fillOverall {N : Nat} (M R k : Nat) (c : BitVec N) : check (fillOverall M R c) k = check c k := by
  refine xorOver_congr fun j hj => ?_
  obtain ⟨-, hbit⟩ := (mem_cover k j).mp hj
  have hj0 : 0 ≠ j := by rintro rfl; simp at hbit
  rw [fillOverall, getLsbD_setBit, if_neg (fun h => hj0 h.1)]

/-- On the positions that check `k` covers, step 2 of rule R54 sets bit `2^k` alone. -/
theorem check_fillHamming_eq_setBit {M R k : Nat} (c : BitVec (1 + M + R)) (hk : k < R) :
    check (fillHamming M R c) k = check (setBit c (2 ^ k) (check c k)) k := by
  refine xorOver_congr fun j hj => ?_
  obtain ⟨hjN, hbit⟩ := (mem_cover k j).mp hj
  rw [fillHamming, getLsbD_fillRounds M R R c j hjN, getLsbD_setBit]
  have hpow : (∃ k' < R, j = 2 ^ k') ↔ 2 ^ k = j ∧ j < 1 + M + R := by
    constructor
    · rintro ⟨k', -, rfl⟩
      rw [Nat.testBit_two_pow, decide_eq_true_eq] at hbit
      exact ⟨by rw [hbit], hjN⟩
    · rintro ⟨rfl, -⟩
      exact ⟨k, hk, rfl⟩
  by_cases hj : 2 ^ k = j
  · rw [if_pos (hpow.mpr ⟨hj, hjN⟩), if_pos ⟨hj, hjN⟩, ← hj, Nat.log2_two_pow, check, cover_eq_walk]
  · rw [if_neg (fun h => hj (hpow.mp h).1), if_neg (fun h => hj h.1)]

theorem cover_nodup (N k : Nat) : (cover N k).Nodup := List.nodup_range.filter _

/-- Step 2 makes check `k` even where its parity position was placed as 0 and lies in the word. -/
theorem check_fillHamming {M R k : Nat} (c : BitVec (1 + M + R)) (hk : k < R) (hpos : 2 ^ k < 1 + M + R)
    (hzero : c.getLsbD (2 ^ k) = false) : check (fillHamming M R c) k = false := by
  have hmem : 2 ^ k ∈ cover (1 + M + R) k := (mem_cover k _).mpr ⟨hpos, by simp⟩
  rw [check_fillHamming_eq_setBit c hk, check, xorOver_setBit _ _ _ hpos (cover_nodup _ k) hmem, hzero,
    check, Bool.xor_false, Bool.xor_self]

@[simp] theorem overallParity_familyEnc (M : Nat) (d : BitVec M) : overallParity (familyEnc M d) = false :=
  overallParity_fillOverall M (rmin M) _

theorem check_familyEnc {M k : Nat} (d : BitVec M) (hk : k < rmin M) : check (familyEnc M d) k = false :=
  (check_fillOverall M (rmin M) k _).trans
    (check_fillHamming _ hk (two_pow_lt_cwWidth hk) (getLsbD_placeData_two_pow d k))

@[simp] theorem syndrome_familyEnc (M : Nat) (d : BitVec M) : syndrome (rmin M) (familyEnc M d) = 0 :=
  (syndrome_eq_zero_iff _ _).mpr fun _ hk => check_familyEnc d hk

/-- Extraction undoes the placing of the data bits (rule R42). -/
@[simp] theorem extract_familyEnc (M : Nat) (d : BitVec M) : extract M (familyEnc M d) = d := by
  refine BitVec.eq_of_getLsbD_eq fun i hi => ?_
  have hbit := getLsbD_encodeAt_payload M (rmin M) d (dpos i) (dpos_lt_cwWidth hi) (isPayload_dpos i)
  rw [dataIndex_dpos] at hbit
  rw [extract, getLsbD_wordOf, decide_eq_true hi, Bool.true_and]
  exact hbit

/-- This build's `ENC` is the family's at `M = 8` (rule R4). -/
theorem encWord_eq_familyEnc (d : Data) : encWord d = familyEnc 8 d := rfl

/-! ### Flips (rule R74) -/

/-- One flip inside the word moves the syndrome by the flipped position. -/
theorem syndrome_flipBit {N R p : Nat} (w : BitVec N) (hp : p < N) (hpR : p < 2 ^ R) :
    syndrome R (flipBit w p) = syndrome R w ^^^ p := by
  refine Nat.eq_of_testBit_eq fun k => ?_
  rw [Nat.testBit_xor, testBit_syndrome, testBit_syndrome, check_flipBit w p k hp]
  by_cases hk : k < R
  · simp [hk]
  · have : p.testBit k = false :=
      Nat.testBit_lt_two_pow (hpR.trans_le (Nat.pow_le_pow_right (by decide) (not_lt.mp hk)))
    simp [hk, this]

/-- The same at the family's widths, where every position of the word is below `2^R`. -/
theorem syndrome_flipBit_family {M p : Nat} (w : BitVec (cwWidth M)) (hp : p < cwWidth M) :
    syndrome (rmin M) (flipBit w p) = syndrome (rmin M) w ^^^ p :=
  syndrome_flipBit w hp (hp.trans_le (cwWidth_le_two_pow M))

theorem familyDec_familyEnc (pol : OorPolicy) (M : Nat) (d : BitVec M) :
    familyDec pol M (familyEnc M d) = some (.noError d, familyEnc M d) := by
  rw [familyDec, decodeAt_of_even_zero pol M _ (overallParity_familyEnc M d) (syndrome_familyEnc M d),
    extract_familyEnc]

theorem familyDec_one_flip (pol : OorPolicy) {M p : Nat} (d : BitVec M) (hp : p < cwWidth M) :
    familyDec pol M (flipBit (familyEnc M d) p) = some (.oneError d p, familyEnc M d) := by
  have hodd : overallParity (flipBit (familyEnc M d) p) = true := by
    rw [overallParity_flipBit _ p hp, overallParity_familyEnc, Bool.not_false]
  have hsyn : syndrome (rmin M) (flipBit (familyEnc M d) p) = p := by
    rw [syndrome_flipBit_family _ hp, syndrome_familyEnc, Nat.zero_xor]
  rw [familyDec, decodeAt_of_odd pol M _ hodd (hsyn.trans_lt hp), hsyn, flipBit_flipBit, extract_familyEnc]

theorem familyDec_two_flips (pol : OorPolicy) {M p q : Nat} (d : BitVec M) (hp : p < cwWidth M)
    (hq : q < cwWidth M) (hpq : p ≠ q) :
    familyDec pol M (flipBit (flipBit (familyEnc M d) p) q)
      = some (.doubleError, flipBit (flipBit (familyEnc M d) p) q) := by
  have heven : overallParity (flipBit (flipBit (familyEnc M d) p) q) = false := by
    rw [overallParity_flipBit _ q hq, overallParity_flipBit _ p hp, overallParity_familyEnc, Bool.not_not]
  have hsyn : syndrome (rmin M) (flipBit (flipBit (familyEnc M d) p) q) ≠ 0 := by
    rw [syndrome_flipBit_family _ hq, syndrome_flipBit_family _ hp, syndrome_familyEnc, Nat.zero_xor]
    exact fun h => hpq (Nat.xor_eq_zero_iff.mp h)
  exact decodeAt_of_even_nonzero pol M _ heven hsyn

/-! ### The statements -/

/-- Settles O28: a codeword's parity and syndrome are zero, and each flip toggles the one and moves the other by the
flipped position, which tells no, one and two flips apart. -/
theorem guaranteesForEveryWidth : Obligations.GuaranteesForEveryWidth := fun pol M d =>
  ⟨familyDec_familyEnc pol M d, fun _ hp => familyDec_one_flip pol d hp,
    fun _ _ hp hq hpq => familyDec_two_flips pol d hp hq hpq⟩

/-- Settles O7: `rmin M ≤ r` and `M + r + 1 ≤ 2^r` say the same, because the condition stays true as `r` grows. -/
theorem parityCountIsLeast : Obligations.ParityCountIsLeast := by
  intro M
  obtain ⟨hfits, hleast⟩ := rmin_spec M
  refine ⟨hfits, hleast, fun r hr => ?_, rmin_eq_zero_iff M, ?_⟩
  · obtain ⟨r, rfl⟩ : ∃ k, r = k + 1 := ⟨r - 1, by omega⟩
    exact rmin_eq_succ_iff M r
  · rw [ne_eq, rmin_eq_succ_iff M 0]
    omega

/-- Settles O14: step 3 of rule R54 makes the overall parity even, step 2 each check, and neither touches a payload
position. -/
theorem codewordsPassEveryCheck : Obligations.CodewordsPassEveryCheck :=
  ⟨fun M d => ⟨overallParity_familyEnc M d, fun _ hk => check_familyEnc d hk, syndrome_familyEnc M d,
    extract_familyEnc M d⟩, encWord_eq_familyEnc⟩

end Sys2Proof.Machine

/-!
The ways a request ends from a state of the invariant, what `FLIP` answers, and the text form.
-/

namespace Sys2Proof.Machine

/-! ### Requests that cannot fault -/

theorem portWord_wellFormed_iff (w : PortWord) : w.wellFormed = true ↔ w.bits.length = w.port.width := beq_iff_eq

theorem exists_ok_of_wellFormed {w : PortWord} (h : w.wellFormed = true) : ∃ i, decode w = .ok i := by
  rw [portWord_wellFormed_iff] at h
  obtain ⟨port, bits⟩ := w
  cases port with
  | encData => exact ⟨_, if_pos h⟩
  | decCw => exact ⟨_, if_pos h⟩

theorem decode_of_ill_formed {w : PortWord} (h : w.wellFormed = false) :
    decode w = .error (.wrongWidth w.port w.bits.length) := by
  rw [← Bool.not_eq_true, portWord_wellFormed_iff] at h
  obtain ⟨port, bits⟩ := w
  cases port with
  | encData => exact if_neg h
  | decCw => exact if_neg h

theorem exec_isNext (i : Instr) (s : State) : ∃ t, exec i s = .next t := by
  cases i with
  | enc d => exact ⟨_, exec_enc d s⟩
  | dec w =>
    obtain ⟨o, -, h⟩ := exec_dec w s
    exact ⟨_, h⟩

/-- A status that `DEC` produced names a class, so the consumer of `DECB` never stops (rules R48, R119). -/
theorem execDecb_isNext (w : Codeword) (s : State) : ∃ t, execDecb w s = .next t := by
  obtain ⟨o, ho, hdec⟩ := exec_dec w s
  obtain ⟨c, hc⟩ : ∃ c, classOfStatus o.status = some c := by
    unfold decPorts at ho
    split at ho
    · cases ho
      exact ⟨_, classOfStatus_portsOfResult 4 _ _⟩
    · cases ho
  have hrun : execDecb w s = replyByte (s.withDec w o) := by
    rw [execDecb, show execDec w s = .next (s.withDec w o) from hdec]
  rw [hrun, replyByte, State.withDec_decOut, hc]
  cases c with
  | noError => exact ⟨_, rfl⟩
  | oneError => exact ⟨_, rfl⟩
  | doubleError => exact ⟨_, rfl⟩

theorem execWriteFile_isNext (data : List Byte) (kind : FileKind) (name : String) (s : State) :
    ∃ t, execWriteFile data kind name s = .next t := by
  unfold execWriteFile writeFileWith
  split
  · split
    · exact ⟨_, rfl⟩
    · exact ⟨_, rfl⟩
  · exact ⟨_, rfl⟩

theorem execCorruptDisk_isNext (n : Nat) (s : State) : ∃ t, execCorruptDisk n s = .next t := by
  unfold execCorruptDisk
  split
  · exact ⟨_, rfl⟩
  · exact ⟨_, rfl⟩

theorem execFlip_of_lt {p : Nat} (hp : p < 13) (w : Codeword) (s : State) :
    execFlip w p s = .next (s.withReply (.flipped (flipBit w p))) := if_pos hp

theorem execFlip_of_ge {p : Nat} (hp : 13 ≤ p) (w : Codeword) (s : State) :
    execFlip w p s = .refused (.flipOutOfRange p) := if_neg (not_lt.mpr hp)

/-- Rule R27 and rule R8: the two refusals. -/
theorem runRequest_of_ill_formed {r : Request} (h : r.wellFormed = false) (s : State) :
    ∃ q, runRequest r s = .refused q := by
  cases r with
  | drive w =>
    refine ⟨.wrongWidth w.port w.bits.length, ?_⟩
    simp only [runRequest, runDrive, decode_of_ill_formed (w := w) h]
  | flip w p => exact ⟨_, execFlip_of_ge (not_lt.mp (of_decide_eq_false h)) w s⟩
  | encb | decb | construct | writeFile | readFile | corruptDisk => cases h

theorem runRequest_of_wellFormed {r : Request} (h : r.wellFormed = true) (hread : ∀ name, r ≠ .readFile name)
    (s : State) : ∃ t, runRequest r s = .next t := by
  cases r with
  | drive w =>
    obtain ⟨i, hi⟩ := exists_ok_of_wellFormed (w := w) h
    simp only [runRequest, runDrive, hi]
    exact exec_isNext i s
  | flip w p => exact ⟨_, execFlip_of_lt (of_decide_eq_true h) w s⟩
  | encb b => exact exec_isNext (.enc (bitsOfByte b)) s
  | decb w => exact execDecb_isNext w s
  | construct n => exact ⟨_, rfl⟩
  | writeFile data kind name => exact execWriteFile_isNext data kind name s
  | readFile name => exact absurd rfl (hread name)
  | corruptDisk n => exact execCorruptDisk_isNext n s

/-! ### The one fault -/

/-- A read of `name` comes, after readable words only, to a word of odd parity whose syndrome names no disk
(rule R122, log entry 11). -/
def ReadStops (a : DiskArray) (name : String) : Prop :=
  ∃ r o w, lookup Config.dupNamePolicy a.directory name = some r ∧ r.startPos ≤ o ∧ o < r.endPos ∧
    gather a.disks o = some w ∧ overallParity w = true ∧ 13 ≤ syndrome 4 w ∧
    ∀ k, r.startPos ≤ k → k < o → ∃ v, gather a.disks k = some v ∧ ByteReadable v

/-- A readable word is neither of the two that end a read. -/
theorem ByteReadable.not_stopping {w : Codeword} (h : ByteReadable w) :
    ¬ (overallParity w = true ∧ 13 ≤ syndrome 4 w) ∧ ¬ (overallParity w = false ∧ syndrome 4 w ≠ 0) := by
  rcases h with ⟨ho, hs⟩ | ⟨ho, hs⟩
  · simp [ho, hs]
  · simp [ho, hs]

/-- A range of readable words does not stop a read, nor does one that ends at a double error. -/
theorem not_readStops {a : DiskArray} {name : String} {r : FileRecord} {e : Nat}
    (hlook : lookup Config.dupNamePolicy a.directory name = some r)
    (hread : ∀ k, r.startPos ≤ k → k < e → ∃ w, gather a.disks k = some w ∧ ByteReadable w)
    (hend : r.endPos ≤ e ∨
      r.startPos ≤ e ∧ ∃ w, gather a.disks e = some w ∧ overallParity w = false ∧ syndrome 4 w ≠ 0) :
    ¬ ReadStops a name := by
  rintro ⟨r', o, w, hlook', hlo, hhi, hg, hodd, hs, hbefore⟩
  obtain rfl : r = r' := Option.some.inj (hlook.symm.trans hlook')
  by_cases ho : o < e
  · obtain ⟨v, hv, hr⟩ := hread o hlo ho
    obtain rfl : v = w := Option.some.inj (hv.symm.trans hg)
    exact hr.not_stopping.1 ⟨hodd, hs⟩
  · rcases hend with hle | ⟨hle, v, hv, heven, hne⟩
    · omega
    · rcases Nat.lt_or_eq_of_le (not_lt.mp ho) with hlt | rfl
      · obtain ⟨u, hu, hr⟩ := hbefore e hle hlt
        obtain rfl : u = v := Option.some.inj (hu.symm.trans hv)
        exact hr.not_stopping.2 ⟨heven, hne⟩
      · obtain rfl : v = w := Option.some.inj (hv.symm.trans hg)
        rw [heven] at hodd
        cases hodd

/-- A read stops with its one fault exactly at such a word, and answers a next state otherwise. -/
theorem runRequest_readFile_cases {s : State} (hs : StateInv s) (name : String) :
    (ReadStops s.array name ∧ runRequest (.readFile name) s = .fault .positionNamesNoDisk) ∨
    (¬ ReadStops s.array name ∧ ∃ t, runRequest (.readFile name) s = .next t) := by
  cases hlook : lookup Config.dupNamePolicy s.array.directory name with
  | none =>
    refine .inr ⟨?_, _, runRequest_readFile_of_absent hlook⟩
    rintro ⟨r, o, w, hlook', -⟩
    rw [hlook] at hlook'
    cases hlook'
  | some r =>
    obtain ⟨hsize, hused⟩ := hs.directory r (mem_of_lookup hlook).1
    rw [runRequest_readFile_of_lookup hlook]
    obtain ⟨m, hm, hread, hcase⟩ :=
      readBytes_cases r.kind (r.endPos - r.startPos) r.startPos [] s hs.lockStep (by omega)
    rcases hcase with ⟨rfl, t, -, hrun, -⟩ | ⟨hlt, w, t, hg, heven, hne, hrun, -⟩ | ⟨hlt, w, hg, hodd, hbeyond, hrun⟩
    · exact .inr ⟨not_readStops hlook hread (.inl (by omega)), t, hrun⟩
    · exact .inr ⟨not_readStops hlook hread (.inr ⟨by omega, w, hg, heven, hne⟩), t, hrun⟩
    · exact .inl ⟨⟨r, r.startPos + m, w, hlook, by omega, by omega, hg, hodd, hbeyond, hread⟩, hrun⟩

/-! ### A step -/

theorem step_of_no_request {s : State} (h : s.requests = []) : step s = .next s := by
  simp only [step, runNext, h, idle]

theorem step_of_request {s : State} {r : Request} {rest : List Request} (h : s.requests = r :: rest) :
    step s = runRequest r (s.withRequests rest) := by
  simp only [step, runNext, h]

theorem StateInv.withRequests {s : State} (h : StateInv s) (q : List Request) : StateInv (s.withRequests q) :=
  ⟨h.ports, h.lockStep, h.capacity, h.directory⟩

/-- The head of the queue is a read that stops. -/
def StopsAtRead (s : State) : Prop := ∃ name rest, s.requests = .readFile name :: rest ∧ ReadStops s.array name

/-- The head of the queue is ill formed. -/
def IllFormedNext (s : State) : Prop := ∃ r rest, s.requests = r :: rest ∧ r.wellFormed = false

/-- Everything a step from a state of the invariant can answer. -/
theorem step_cases {s : State} (hs : StateInv s) :
    (StopsAtRead s ∧ ¬ IllFormedNext s ∧ step s = .fault .positionNamesNoDisk) ∨
    (¬ StopsAtRead s ∧ IllFormedNext s ∧ ∃ q, step s = .refused q) ∨
    (¬ StopsAtRead s ∧ ¬ IllFormedNext s ∧ ∃ t, step s = .next t) := by
  cases hq : s.requests with
  | nil => exact .inr (.inr ⟨by simp [StopsAtRead, hq], by simp [IllFormedNext, hq], s, step_of_no_request hq⟩)
  | cons r rest =>
    rw [step_of_request hq]
    by_cases hread : ∃ name, r = .readFile name
    · obtain ⟨name, rfl⟩ := hread
      have hwf : ¬ IllFormedNext s := by simp [IllFormedNext, hq, Request.wellFormed]
      have hstop : StopsAtRead s ↔ ReadStops s.array name := by simp [StopsAtRead, hq]
      rw [hstop]
      rcases runRequest_readFile_cases (hs.withRequests rest) name with ⟨h, hrun⟩ | ⟨h, hrun⟩
      · exact .inl ⟨h, hwf, hrun⟩
      · exact .inr (.inr ⟨h, hwf, hrun⟩)
    · have hstop : ¬ StopsAtRead s := by
        rintro ⟨name, rest', hq', -⟩
        rw [hq] at hq'
        exact hread ⟨name, (List.cons.inj hq').1⟩
      have hill : IllFormedNext s ↔ r.wellFormed = false := by simp [IllFormedNext, hq]
      rw [hill]
      cases hwf : r.wellFormed with
      | false => exact .inr (.inl ⟨hstop, rfl, runRequest_of_ill_formed hwf _⟩)
      | true =>
        exact .inr (.inr ⟨hstop, by decide, runRequest_of_wellFormed hwf (fun name h => hread ⟨name, h⟩) _⟩)

theorem stopsAtRead_iff (s : State) : StopsAtRead s ↔
    ∃ name rest r o w, s.requests = .readFile name :: rest ∧
      lookup Config.dupNamePolicy s.array.directory name = some r ∧ r.startPos ≤ o ∧ o < r.endPos ∧
      gather s.array.disks o = some w ∧ overallParity w = true ∧ 13 ≤ syndrome 4 w ∧
      ∀ k, r.startPos ≤ k → k < o → ∃ v, gather s.array.disks k = some v ∧ ByteReadable v := by
  simp only [StopsAtRead, ReadStops, exists_and_left]

/-- The only fault, and when it comes. -/
theorem step_eq_fault_iff {s : State} (hs : StateInv s) (f : Fault) :
    step s = .fault f ↔ f = .positionNamesNoDisk ∧ StopsAtRead s := by
  rcases step_cases hs with ⟨hstop, -, hrun⟩ | ⟨hstop, -, q, hrun⟩ | ⟨hstop, -, t, hrun⟩
  · simp [hrun, hstop, eq_comm]
  · simp [hrun, hstop]
  · simp [hrun, hstop]

theorem step_refused_iff {s : State} (hs : StateInv s) : (∃ q, step s = .refused q) ↔ IllFormedNext s := by
  rcases step_cases hs with ⟨-, hwf, hrun⟩ | ⟨-, hwf, q, hrun⟩ | ⟨-, hwf, t, hrun⟩
  · simp [hrun, hwf]
  · simp [hrun, hwf]
  · simp [hrun, hwf]

/-! ### The text form (rules R6, R26) -/

theorem mapM_bitOfChar_map (bits : BitSeq) :
    (bits.map (fun b => if b then '1' else '0')).mapM bitOfChar = some bits := by
  induction bits with
  | nil => rfl
  | cons b bits ih => cases b <;> simp [ih, bitOfChar]

theorem bitOfChar_eq_some {c : Char} {b : Bool} (h : bitOfChar c = some b) : (if b then '1' else '0') = c := by
  unfold bitOfChar at h
  split at h
  case isTrue hc => cases h; exact hc.symm
  case isFalse =>
    split at h
    case isTrue hc => cases h; exact hc.symm
    case isFalse => cases h

theorem map_of_mapM_bitOfChar {cs : List Char} {bits : BitSeq} (h : cs.mapM bitOfChar = some bits) :
    bits.map (fun b => if b then '1' else '0') = cs := by
  induction cs generalizing bits with
  | nil => cases h; rfl
  | cons c cs ih =>
    simp only [List.mapM_cons, Option.bind_eq_bind, Option.pure_def, Option.bind_eq_some_iff, Option.some.injEq] at h
    obtain ⟨b, hb, bs, hbs, rfl⟩ := h
    rw [List.map_cons, bitOfChar_eq_some hb, ih hbs]

/-! ### The statements -/

/-- Settles O54: `step_cases` gives three cases that exclude one another, and says which comes when. -/
theorem theOnlyStops : Obligations.TheOnlyStops := by
  intro s hs
  rw [← stopsAtRead_iff]
  exact ⟨fun f h => ((step_eq_fault_iff hs f).mp h).1, (step_eq_fault_iff hs _).trans (and_iff_right rfl),
    fun q h => (step_refused_iff hs).mp ⟨q, h⟩, fun r rest hq hwf => (step_refused_iff hs).mpr ⟨r, rest, hq, hwf⟩⟩

/-- Settles O38: each bit has one character and each of the two characters one bit. -/
theorem textRoundTrip : Obligations.TextRoundTrip := by
  refine ⟨fun bits => ?_, fun t bits h => ?_⟩
  · rw [bitsOfText, textOfBits, String.toList_ofList, mapM_bitOfChar_map]
  · rw [textOfBits, map_of_mapM_bitOfChar h, String.ofList_toList]

/-- Settles O37: below 13 the reply is the word flipped there, from 13 on the request is refused. -/
theorem flipRequest : Obligations.FlipRequest := by
  intro w p s
  refine ⟨fun hp => ⟨flipBit w p, execFlip_of_lt hp w s, fun j hj => ?_⟩, fun hp => execFlip_of_ge hp w s⟩
  rw [getLsbD_flipBit, decide_eq_true hj, Bool.true_and]
  by_cases h : j = p
  · simp [h]
  · simp [h, Ne.symm h]

end Sys2Proof.Machine

/-!
What a request and a step leave: every request updates the state by the few shared operations of Machine/Ops.lean and
Machine/Array.lean, so what these keep, a step keeps.
-/

namespace Sys2Proof.Machine

/-! ### What a request that is answered has done -/

theorem runDrive_eq_next {w : PortWord} {s t : State} (h : runDrive w s = .next t) :
    ∃ i, decode w = .ok i ∧ exec i s = .next t := by
  unfold runDrive at h
  split at h
  case h_1 i hi => exact ⟨i, hi, h⟩
  case h_2 => cases h

theorem replyByte_eq_next {s t : State} (h : replyByte s = .next t) : ∃ r, t = s.withReply r := by
  unfold replyByte at h
  split at h <;> cases h <;> exact ⟨_, rfl⟩

theorem execDecb_eq_next {w : Codeword} {s t : State} (h : execDecb w s = .next t) :
    ∃ u r, exec (.dec w) s = .next u ∧ t = u.withReply r := by
  unfold execDecb at h
  split at h
  case h_1 u hu =>
    obtain ⟨r, ht⟩ := replyByte_eq_next h
    exact ⟨u, r, hu, ht⟩
  case h_2 | h_3 => cases h

theorem execFlip_eq_next {w : Codeword} {p : Nat} {s t : State} (h : execFlip w p s = .next t) :
    ∃ r, t = s.withReply r := by
  unfold execFlip at h
  split at h <;> cases h
  exact ⟨_, rfl⟩

/-- The state after a write that is carried out, before its reply: the bytes striped, then the books
(rules R86, R87). -/
def fileStored (data : List Byte) (kind : FileKind) (name : String) (s : State) : State :=
  (storeBytes data s).withArray
    (registerFile (usedBytes s.array.disks) data kind name (storeBytes data s).array)

theorem fileStored_array (data : List Byte) (kind : FileKind) (name : String) (s : State) :
    (fileStored data kind name s).array =
      { disks := (storeBytes data s).array.disks
        totalCapacity := s.array.totalCapacity
        freeSpace := s.array.freeSpace - data.length
        directory := s.array.directory ++
          [⟨name, usedBytes s.array.disks, usedBytes s.array.disks + data.length, data.length, kind⟩] } := by
  obtain ⟨-, -, -, -, htotal, hfree, hdir⟩ := storeBytes_frame data s
  rw [fileStored, State.withArray_array, registerFile, htotal, hfree, hdir]

theorem execWriteFile_eq_next {data : List Byte} {kind : FileKind} {name : String} {s t : State}
    (h : execWriteFile data kind name s = .next t) :
    (∃ r, t = s.withReply r) ∨
      (data.length < s.array.freeSpace ∧ ∃ r, t = (fileStored data kind name s).withReply r) := by
  unfold execWriteFile writeFileWith at h
  split at h
  case isFalse => cases h; exact .inl ⟨_, rfl⟩
  case isTrue hfree =>
    split at h
    case isTrue => cases h; exact .inl ⟨_, rfl⟩
    case isFalse => cases h; exact .inr ⟨hfree, _, rfl⟩

theorem execCorruptDisk_eq_next {n : Nat} {s t : State} (h : execCorruptDisk n s = .next t) :
    (∃ r, t = s.withReply r) ∨
      ∃ r, t = (s.withDisks (diskComplement s.array.disks (n - 1))).withReply r := by
  unfold execCorruptDisk at h
  split at h <;> cases h
  case isTrue => exact .inr ⟨_, rfl⟩
  case isFalse => exact .inl ⟨_, rfl⟩

/-! ### What the shared operations keep, a step keeps -/

/-- Every operation a request is made of keeps `P`. -/
structure KeptByOps (P : State → Prop) : Prop where
  enc : ∀ s d, P s → P (s.withEnc d (encWord d))
  dec : ∀ s w o, decPorts Config.oorPolicy w = some o → P s → P (s.withDec w o)
  reply : ∀ s r, P s → P (s.withReply r)
  construct : ∀ s n, P s → P (s.withArray (constructArray n))
  store : ∀ s data kind name, data.length < s.array.freeSpace → P s → P (fileStored data kind name s)
  repair : ∀ s ds j o v, diskWrite s.array.disks j o v = some ds → P s → P (s.withDisks ds)
  complement : ∀ s j, P s → P (s.withDisks (diskComplement s.array.disks j))

section
variable {P : State → Prop} (hP : KeptByOps P)
include hP

theorem exec_keeps {i : Instr} {s t : State} (h : exec i s = .next t) (hs : P s) : P t := by
  cases i with
  | enc d => cases h; exact hP.enc s d hs
  | dec w =>
    obtain ⟨o, ho, hrun⟩ := exec_dec w s
    cases hrun.symm.trans h
    exact hP.dec s w o ho hs

theorem runRequest_readFile_keeps {name : String} {s t : State} (h : runRequest (.readFile name) s = .next t)
    (hs : P s) : P t := by
  cases hlook : lookup Config.dupNamePolicy s.array.directory name with
  | none =>
    cases (runRequest_readFile_of_absent hlook).symm.trans h
    exact hP.reply s _ hs
  | some r =>
    rw [runRequest_readFile_of_lookup hlook] at h
    exact readBytes_keeps hP.dec (fun s ds j o v _ _ hw => hP.repair s ds j o v hw) hP.reply
      _ _ _ s t le_rfl le_rfl h hs

theorem runRequest_keeps {r : Request} {s t : State} (h : runRequest r s = .next t) (hs : P s) : P t := by
  cases r with
  | drive w =>
    obtain ⟨i, -, hi⟩ := runDrive_eq_next h
    exact exec_keeps hP hi hs
  | flip w p =>
    obtain ⟨r, rfl⟩ := execFlip_eq_next h
    exact hP.reply s r hs
  | encb b => exact exec_keeps hP (i := .enc (bitsOfByte b)) h hs
  | decb w =>
    obtain ⟨u, r, hu, rfl⟩ := execDecb_eq_next h
    exact hP.reply u r (exec_keeps hP hu hs)
  | construct n => cases h; exact hP.reply _ _ (hP.construct s n hs)
  | writeFile data kind name =>
    rcases execWriteFile_eq_next h with ⟨r, rfl⟩ | ⟨hfree, r, rfl⟩
    · exact hP.reply s r hs
    · exact hP.reply _ r (hP.store s data kind name hfree hs)
  | readFile name => exact runRequest_readFile_keeps hP h hs
  | corruptDisk n =>
    rcases execCorruptDisk_eq_next h with ⟨r, rfl⟩ | ⟨r, rfl⟩
    · exact hP.reply s r hs
    · exact hP.reply _ r (hP.complement s (n - 1) hs)

end

/-! ### The invariant -/

/-- Disks of the same lengths count the same bytes, so the array's invariants stay. -/
theorem StateInv.withDisks {s : State} (h : StateInv s) {ds : Memory}
    (hds : ds.wf = true ∧ usedBytes ds = usedBytes s.array.disks) : StateInv (s.withDisks ds) where
  ports := h.ports
  lockStep := hds.1
  capacity := by
    rw [CapacityCounts, State.withDisks_array_disks, hds.2]
    exact h.capacity
  directory := by
    rw [DirectorySound, State.withDisks_array_disks, hds.2]
    exact h.directory

/-- A new array has nothing written and all its capacity free (rule R80). -/
theorem StateInv.withConstructArray {s : State} (h : StateInv s) (n : Nat) :
    StateInv (s.withArray (constructArray n)) where
  ports := h.ports
  lockStep := show Memory.wf (List.replicate 13 []) = true by decide
  capacity := ⟨rfl, Nat.mul_mod_left n 13⟩
  directory := fun _ hr => absurd hr List.not_mem_nil

/-- A write that fits takes as many bytes off the free space as it adds to the disks, and its record covers exactly
these (rules R85, R87). -/
theorem fileStored_inv {s : State} (h : StateInv s) {data : List Byte} (hfree : data.length < s.array.freeSpace)
    (kind : FileKind) (name : String) : StateInv (fileStored data kind name s) := by
  obtain ⟨hdecCw, hdecOut, -⟩ := storeBytes_frame data s
  obtain ⟨hwf, hused⟩ := storeBytes_wf data s h.lockStep
  obtain ⟨henc, hdec⟩ := h.ports
  obtain ⟨hsum, hmod⟩ := h.capacity
  refine ⟨⟨storeBytes_enc data s henc, ?_⟩, hwf, ?_, ?_⟩
  · rw [fileStored, State.withArray_decCw, State.withArray_decOut, hdecCw, hdecOut, hdec]
  · rw [CapacityCounts, fileStored_array]
    have hcount : s.array.freeSpace - data.length + (usedBytes s.array.disks + data.length) =
        s.array.totalCapacity := by omega
    exact ⟨by rw [hused]; exact hcount, hmod⟩
  · rw [DirectorySound, fileStored_array]
    intro r hr
    rw [hused]
    rcases List.mem_append.mp hr with hold | hnew
    · obtain ⟨hsize, hend⟩ := h.directory r hold
      exact ⟨hsize, by omega⟩
    · obtain rfl := List.mem_singleton.mp hnew
      exact ⟨rfl, le_rfl⟩

theorem stateInv_keptByOps : KeptByOps StateInv where
  enc _ _ h := ⟨⟨rfl, h.ports.2⟩, h.lockStep, h.capacity, h.directory⟩
  dec _ _ _ ho h := ⟨⟨h.ports.1, ho⟩, h.lockStep, h.capacity, h.directory⟩
  reply _ _ h := ⟨h.ports, h.lockStep, h.capacity, h.directory⟩
  construct _ n h := h.withConstructArray n
  store _ _ kind name hfree h := fileStored_inv h hfree kind name
  repair _ _ _ _ _ hw h := h.withDisks (diskWrite_wf hw h.lockStep)
  complement _ j h := h.withDisks (diskComplement_wf h.lockStep j)

/-! ### The queue -/

/-- No operation a request is made of touches the queue. -/
theorem requests_keptByOps (q : List Request) : KeptByOps (fun s => s.requests = q) where
  enc _ _ h := h
  dec _ _ _ _ h := h
  reply _ _ h := h
  construct _ _ h := h
  store s data _ _ _ h := by
    obtain ⟨-, -, -, hrequests, -⟩ := storeBytes_frame data s
    exact hrequests.trans h
  repair _ _ _ _ _ _ h := h
  complement _ _ h := h

/-! ### Words of the opcode table -/

theorem decode_of_decodeTableWord {nbits w : Nat} {i : Instr} (h : decodeTableWord nbits w = some i) :
    decode (tablePortWord nbits w) = .ok i := by
  unfold decodeTableWord at h
  split at h
  case h_1 j hj => cases h; exact hj
  case h_2 => cases h

/-! ### The statements -/

/-- Settles O53: each operation a request is made of keeps the invariant, and so does taking the request off the
queue. -/
theorem stepKeepsTheInvariant : Obligations.StepKeepsTheInvariant := by
  intro s t hs h
  cases hq : s.requests with
  | nil =>
    cases (step_of_no_request hq).symm.trans h
    exact hs
  | cons r rest =>
    rw [step_of_request hq] at h
    exact runRequest_keeps stateInv_keptByOps h (hs.withRequests rest)

/-- Settles O6: the step takes the oldest request off, and running it leaves the queue alone. -/
theorem requestsRunInOrder : Obligations.RequestsRunInOrder := by
  refine ⟨fun s t r rest hq h => ?_, fun s hq => step_of_no_request hq⟩
  rw [step_of_request hq] at h
  exact runRequest_keeps (requests_keptByOps rest) h (State.withRequests_requests s rest)

/-- Settles O3: a drive at the head of the queue is run by the decoder and `exec`. -/
theorem stepRunsTheDecodedOperation : Obligations.StepRunsTheDecodedOperation := by
  intro s w rest i hq hi
  simp only [step_of_request hq, runRequest, runDrive, hi]

/-- Settles O4: placing puts a drive at the head of the queue, and taking it off gives the state back (O3). -/
theorem placedWordRunsNext : Obligations.PlacedWordRunsNext := fun s nbits w i h =>
  stepRunsTheDecodedOperation (s.withFetchWord nbits w) _ s.requests i rfl (decode_of_decodeTableWord h)

/-- Settles O12: `ENC` is an update of the encoder's two wires. -/
theorem encFrame : Obligations.EncFrame := by
  intro d s t h
  cases (exec_enc d s).symm.trans h
  exact ⟨rfl, rfl, rfl, rfl, rfl, fun _ _ => rfl⟩

/-- Settles O18: `DEC` is an update of the decoder's wires. -/
theorem decFrame : Obligations.DecFrame := by
  intro w s t h
  obtain ⟨o, -, hrun⟩ := exec_dec w s
  cases hrun.symm.trans h
  exact ⟨rfl, rfl, rfl, rfl, rfl, rfl, fun _ _ => rfl⟩

/-- Settles O23: the word a block puts on its outputs is chosen by its input before any state is looked at. -/
theorem blocksHaveNoHistory : Obligations.BlocksHaveNoHistory := by
  refine ⟨fun d s s' => ⟨_, _, exec_enc d s, exec_enc d s', rfl, exec_enc d _⟩, fun w s s' => ?_⟩
  obtain ⟨o, ho⟩ := decPorts_isSome w
  exact ⟨_, _, exec_dec_of_ports s ho, exec_dec_of_ports s' ho, rfl, exec_dec_of_ports _ ho⟩

end Sys2Proof.Machine

/-!
The forms a word has outside the codec: the bit sequence on a port against the operation it offers, and a byte against
its data bits.
-/

namespace Sys2Proof

/-! ### Port words (rules R27, R46, R47, R50) -/

/-- Beside `wordOfBits_bitsOfWord`, the other direction, where the bit sequence has the word's width. -/
theorem bitsOfWord_wordOfBits {n : Nat} {bits : BitSeq} (h : bits.length = n) :
    bitsOfWord (wordOfBits n bits) = bits := by
  refine List.ext_getElem (by rw [length_bitsOfWord, h]) fun i hi hbits => ?_
  rw [length_bitsOfWord] at hi
  simp [bitsOfWord, wordOfBits, hi, hbits]

theorem decode_encode (i : Instr) : decode (encode i) = .ok i := by
  cases i with
  | enc d => simp [encode, decode]
  | dec w => simp [encode, decode]

theorem decode_of_encode_eq {w : PortWord} {i : Instr} (h : encode i = w) : decode w = .ok i := h ▸ decode_encode i

theorem exists_encode_eq {w : PortWord} (h : w.bits.length = w.port.width) : ∃ i, encode i = w := by
  obtain ⟨port, bits⟩ := w
  cases port with
  | encData => exact ⟨.enc (wordOfBits 8 bits), congrArg (PortWord.mk .encData) (bitsOfWord_wordOfBits h)⟩
  | decCw => exact ⟨.dec (wordOfBits 13 bits), congrArg (PortWord.mk .decCw) (bitsOfWord_wordOfBits h)⟩

end Sys2Proof

namespace Sys2Proof.Machine

theorem wellFormed_of_decode {w : PortWord} {i : Instr} (h : decode w = .ok i) : w.wellFormed = true := by
  by_contra hw
  rw [Bool.not_eq_true] at hw
  cases (decode_of_ill_formed hw).symm.trans h

/-- An accepted word has its port's width, so it is the encoding of some operation, which is the one decoded. -/
theorem encode_of_decode {w : PortWord} {i : Instr} (h : decode w = .ok i) : encode i = w := by
  obtain ⟨j, hj⟩ := exists_encode_eq ((portWord_wellFormed_iff w).mp (wellFormed_of_decode h))
  cases (decode_of_encode_eq hj).symm.trans h
  exact hj

/-! ### Bytes and data words (rules R23, R24) -/

/-- Data bit `i` is the byte's bit of weight `2^(7-i)` (rule R23). -/
theorem getLsbD_bitsOfByte (b : Byte) {i : Nat} (hi : i < 8) : (bitsOfByte b).getLsbD i = b.getLsbD (7 - i) := by
  simp [bitsOfByte, hi]

/-- The sum of rule R24 read in ascending weights: a binary numeral whose bits are the data bits backwards. -/
theorem byteOfBits_eq_ofBits (d : Data) :
    byteOfBits d = BitVec.ofNat 8 (Nat.ofBits fun k : Fin 8 => d.getLsbD (7 - k)) := by
  rw [byteOfBits]
  congr 1
  simp +arith [List.range_succ, Nat.ofBits, Fin.foldr_succ]

theorem getLsbD_byteOfBits (d : Data) {k : Nat} (hk : k < 8) : (byteOfBits d).getLsbD k = d.getLsbD (7 - k) := by
  rw [byteOfBits_eq_ofBits, BitVec.getLsbD_ofNat, Nat.testBit_ofBits_lt _ _ hk, decide_eq_true hk, Bool.true_and]

@[simp] theorem byteOfBits_bitsOfByte (b : Byte) : byteOfBits (bitsOfByte b) = b := by
  refine BitVec.eq_of_getLsbD_eq fun k hk => ?_
  rw [getLsbD_byteOfBits _ hk, getLsbD_bitsOfByte _ (by omega), show 7 - (7 - k) = k by omega]

@[simp] theorem bitsOfByte_byteOfBits (d : Data) : bitsOfByte (byteOfBits d) = d := by
  refine BitVec.eq_of_getLsbD_eq fun i hi => ?_
  rw [getLsbD_bitsOfByte _ hi, getLsbD_byteOfBits _ (by omega), show 7 - (7 - i) = i by omega]

/-! ### Byte sequences -/

theorem bitsOfBytes_cons (b : Byte) (bs : List Byte) :
    bitsOfBytes (b :: bs) = bitsOfWord (bitsOfByte b) ++ bitsOfBytes bs := List.flatMap_cons

theorem bytesOfBits_append {g : BitSeq} (hg : g.length = 8) (rest : BitSeq) :
    bytesOfBits (g ++ rest) = (bytesOfBits rest).map (byteOfBits (wordOfBits 8 g) :: ·) := by
  match g, hg with
  | [_, _, _, _, _, _, _, _], _ => rfl

theorem bytesOfBits_bitsOfBytes (bs : List Byte) : bytesOfBits (bitsOfBytes bs) = some bs := by
  induction bs with
  | nil => rfl
  | cons b bs ih =>
    rw [bitsOfBytes_cons, bytesOfBits_append (length_bitsOfWord _), ih, wordOfBits_bitsOfWord, byteOfBits_bitsOfByte]
    rfl

/-- A sequence too short for one more group, and not empty. -/
theorem bytesOfBits_of_short {bits : BitSeq} (h0 : 0 < bits.length) (h8 : bits.length < 8) :
    bytesOfBits bits = none := by
  match bits with
  | [_] | [_, _] | [_, _, _] | [_, _, _, _] | [_, _, _, _, _] | [_, _, _, _, _, _] | [_, _, _, _, _, _, _] => rfl

/-- Groups of 8 are taken off as long as there are any; what is left decides. -/
theorem bytesOfBits_eq_none_iff (bits : BitSeq) : bytesOfBits bits = none ↔ bits.length % 8 ≠ 0 := by
  induction h : bits.length using Nat.strong_induction_on generalizing bits with
  | _ n ih =>
    subst h
    rcases Nat.lt_or_ge bits.length 8 with hshort | hlong
    · rcases Nat.eq_zero_or_pos bits.length with hzero | hpos
      · rw [List.eq_nil_of_length_eq_zero hzero]
        decide
      · rw [bytesOfBits_of_short hpos hshort, Nat.mod_eq_of_lt hshort]
        simp [hpos.ne']
    · have hdrop : (bits.drop 8).length = bits.length - 8 := List.length_drop
      have hgroup : bytesOfBits bits = none ↔ bytesOfBits (bits.drop 8) = none := by
        conv_lhs => rw [← List.take_append_drop 8 bits, bytesOfBits_append (List.length_take_of_le hlong)]
        exact Option.map_eq_none_iff
      rw [hgroup, ih _ (by omega) _ hdrop, Nat.mod_eq_sub_mod hlong]

/-! ### The statements -/

/-- Settles O1: every word of its port's width is an encoding, and `decode` undoes `encode`. -/
theorem decodeAndEncodeAgree : Obligations.DecodeAndEncodeAgree :=
  ⟨fun i _ => decode_encode i, fun _ _ => encode_of_decode,
    fun _ => ⟨fun ⟨_, h⟩ => wellFormed_of_decode h, exists_ok_of_wellFormed⟩⟩

/-- Settles O34: bit `7 - i` of the byte is the quotient by its weight, modulo 2. -/
theorem bytesBecomeBits : Obligations.BytesBecomeBits := by
  refine ⟨fun b i hi => ?_, bitsOfBytes_cons, rfl, by decide⟩
  rw [getLsbD_bitsOfByte b hi, ← BitVec.testBit_toNat, Nat.testBit_eq_decide_div_mod_eq]

/-- Settles O35: bit `k` goes to `7 - k` and back, a sequence goes group by group, and only a last group that is too
short gives none. -/
theorem bytesRoundTrip : Obligations.BytesRoundTrip :=
  ⟨byteOfBits_bitsOfByte, bitsOfByte_byteOfBits, bytesOfBits_bitsOfBytes, bytesOfBits_eq_none_iff⟩

/-- Settles O2: the first three words are encodings, the last two have another width than their port. -/
theorem sampleWordsDecode : Obligations.SampleWordsDecode :=
  ⟨decode_of_encode_eq (by decide), decode_of_encode_eq (by decide), decode_of_encode_eq (by decide),
    decode_of_ill_formed rfl, decode_of_ill_formed rfl⟩

/-- Settles O5: a well-formed drive is answered, and the answer has taken the request off the queue (O6); any other is
refused by the decoder. -/
theorem everyWordOfItsWidthRuns : Obligations.EveryWordOfItsWidthRuns := by
  intro s w rest hq
  refine ⟨fun hw => ?_, fun hw => ?_⟩
  · obtain ⟨t, ht⟩ := runRequest_of_wellFormed (r := .drive w) ((portWord_wellFormed_iff w).mpr hw) nofun
      (s.withRequests rest)
    have hstep : step s = .next t := (step_of_request hq).trans ht
    exact ⟨t, hstep, requestsRunInOrder.1 s t _ rest hq hstep⟩
  · have hill : w.wellFormed = false := Bool.eq_false_of_not_eq_true (mt (portWord_wellFormed_iff w).mp hw)
    simp only [step_of_request hq, runRequest, runDrive, decode_of_ill_formed hill]

end Sys2Proof.Machine

/-!
Encodings: the two widths a word's length gives away, the payload and Hamming positions and what the parity bits cover,
the parity equations of `ENC`, and the class of every word that reaches `DEC`.
-/

namespace Sys2Proof.Machine

/-! ### The decoder's parity count (rules R43, R45) -/

theorem rdec_le_iff (N r : Nat) : rdec N ≤ r ↔ N ≤ 2 ^ r := by
  obtain ⟨q, hfind, hq, -, hleast⟩ := find?_range_least (n := N + 1) (p := fun r => N ≤ 2 ^ r)
    ⟨N, by omega, decide_eq_true Nat.lt_two_pow_self.le⟩
  have hrdec : rdec N = q := by rw [rdec, hfind, Option.getD_some]
  rw [hrdec]
  constructor
  · intro h
    exact (of_decide_eq_true hq).trans (Nat.pow_le_pow_right (by decide) h)
  · intro h
    by_contra hlt
    exact of_decide_eq_false (hleast r (by omega)) h

/-- The word is too long for one parity bit fewer than the encoder's, and not for the encoder's. -/
theorem rdec_cwWidth (M : Nat) : rdec (cwWidth M) = rmin M := by
  refine le_antisymm ((rdec_le_iff _ _).mpr (cwWidth_le_two_pow M)) ?_
  by_contra h
  have := two_pow_lt_cwWidth (not_le.mp h)
  have := (rdec_le_iff (cwWidth M) _).mp le_rfl
  omega

theorem payloadOfWidth_eq_some_iff (N M : Nat) : payloadOfWidth N = some M ↔ N = cwWidth M := by
  unfold payloadOfWidth
  constructor
  · intro h
    split at h
    case isTrue hN => rw [← Option.some.inj h]; exact hN
    case isFalse => cases h
  · rintro rfl
    have hM : cwWidth M - 1 - rdec (cwWidth M) = M := by rw [rdec_cwWidth, cwWidth]; omega
    rw [hM, if_pos rfl]

theorem payloadOfWidth_eq_none_iff (N : Nat) : payloadOfWidth N = none ↔ ∀ M, N ≠ cwWidth M := by
  rw [Option.eq_none_iff_forall_ne_some]
  exact forall_congr' fun M => not_congr (payloadOfWidth_eq_some_iff N M)

/-- At `2^k + 1` positions `k` parity bits are too few, and `k + 1` of them leave too little payload to need them. -/
theorem two_pow_add_one_ne_cwWidth (k M : Nat) : 2 ^ k + 1 ≠ cwWidth M := by
  intro h
  unfold cwWidth at h
  by_cases hk : rmin M ≤ k
  · have := (rmin_spec M).1
    have := Nat.pow_le_pow_right (n := 2) (by decide) hk
    omega
  · have := (rmin_spec M).2 k (not_le.mp hk)
    omega

/-- Every other width above 0 is that of a codeword, its parity count being the decoder's. -/
theorem exists_eq_cwWidth {N : Nat} (h0 : N ≠ 0) (hpow : ∀ k, N ≠ 2 ^ k + 1) : ∃ M, N = cwWidth M := by
  have hfits := (rdec_le_iff N _).mp le_rfl
  cases hr : rdec N with
  | zero =>
    rw [hr, pow_zero] at hfits
    have hN : N = 1 := by omega
    exact ⟨0, hN⟩
  | succ r =>
    rw [hr] at hfits
    have hlow : 2 ^ r < N := not_le.mp fun h => by have := (rdec_le_iff N r).mpr h; omega
    have hne := hpow r
    have hself := Nat.lt_two_pow_self (n := r)
    refine ⟨N - 1 - (r + 1), ?_⟩
    have hrmin : rmin (N - 1 - (r + 1)) = r + 1 := (rmin_eq_succ_iff _ _).mpr (by omega)
    rw [cwWidth, hrmin]
    omega

/-! ### Payload and Hamming positions (rules R35, R36, R37) -/

/-- Position 0 apart, every position is a Hamming or a payload position. -/
theorem countP_hamming_add_dataIndex (n : Nat) :
    (List.range (n + 1)).countP (fun j => posClass j = .hamming) + dataIndex (n + 1) = n := by
  induction n with
  | zero => decide
  | succ n ih =>
    have hclass : posClass (n + 1) = .hamming ∧ isPayload (n + 1) = false ∨
        posClass (n + 1) ≠ .hamming ∧ isPayload (n + 1) = true := by
      cases h : pow2 (n + 1) <;> simp [isPayload, posClass, h]
    rw [List.range_succ, List.countP_append, dataIndex_succ]
    rcases hclass with ⟨h, hp⟩ | ⟨h, hp⟩
    · simp [h, hp]; omega
    · simp [h, hp]; omega

theorem countP_hamming_cwWidth (M : Nat) :
    (List.range (cwWidth M)).countP (fun j => posClass j = .hamming) = rmin M := by
  have hcount := countP_hamming_add_dataIndex (M + rmin M)
  have hwidth : M + rmin M + 1 = cwWidth M := by unfold cwWidth; omega
  rw [hwidth, dataIndex_cwWidth] at hcount
  omega

/-- A payload position is counted by every later one. -/
theorem dataIndex_lt_of_isPayload {i j : Nat} (hi : isPayload i = true) (hij : i < j) : dataIndex i < dataIndex j := by
  have hstep := dataIndex_succ i
  rw [hi, Bool.toNat_true] at hstep
  have := dataIndex_mono (show i + 1 ≤ j from hij)
  omega

theorem dpos_dataIndex {j : Nat} (hj : isPayload j = true) : dpos (dataIndex j) = j := by
  rcases Nat.lt_trichotomy (dpos (dataIndex j)) j with h | h | h
  · have := dataIndex_lt_of_isPayload (isPayload_dpos _) h
    rw [dataIndex_dpos] at this
    omega
  · exact h
  · have := dataIndex_lt_of_isPayload hj h
    rw [dataIndex_dpos] at this
    omega

theorem dpos_lt_dpos_succ (i : Nat) : dpos i < dpos (i + 1) := by
  by_contra h
  have := dataIndex_mono (not_lt.mp h)
  rw [dataIndex_dpos, dataIndex_dpos] at this
  omega

/-- The payload positions of the word are those of the `M` data bits. -/
theorem dataIndex_lt_of_lt_cwWidth {M j : Nat} (hj : isPayload j = true) (hlt : j < cwWidth M) : dataIndex j < M :=
  (dataIndex_lt_of_isPayload hj hlt).trans_eq (dataIndex_cwWidth M)

/-! ### Cover sets (rule R38) -/

theorem two_pow_mem_cover_iff (N k k' : Nat) : 2 ^ k' ∈ cover N k ↔ 2 ^ k' < N ∧ k' = k := by
  rw [mem_cover, Nat.testBit_two_pow, decide_eq_true_eq]

theorem zero_notMem_cover (N k : Nat) : 0 ∉ cover N k := by
  rw [mem_cover, Nat.zero_testBit]
  exact fun h => Bool.false_ne_true h.2

/-- The only Hamming position a parity bit covers is its own. -/
theorem isPayload_of_mem_cover {N k j : Nat} (hj : j ∈ cover N k) (hne : j ≠ 2 ^ k) : isPayload j = true := by
  refine (isPayload_iff j).mpr ⟨?_, ?_⟩
  · rintro rfl
    exact zero_notMem_cover N k hj
  · rintro ⟨k', rfl⟩
    exact hne (by rw [((two_pow_mem_cover_iff N k k').mp hj).2])

/-- A number that is no power of two has a one below its leading one. -/
theorem exists_two_testBits {j : Nat} (hj : isPayload j = true) :
    ∃ k < j.log2, j.testBit k = true ∧ j.testBit j.log2 = true := by
  obtain ⟨h0, hpow⟩ := (isPayload_iff j).mp hj
  have hle := Nat.log2_self_le h0
  have hlt := Nat.lt_log2_self (n := j)
  have hrest : j % 2 ^ j.log2 ≠ 0 := by
    rw [Nat.mod_eq_sub_mod hle, Nat.mod_eq_of_lt (by rw [pow_succ] at hlt; omega)]
    exact fun h => hpow ⟨j.log2, by omega⟩
  obtain ⟨k, hk⟩ := Nat.exists_testBit_of_ne_zero hrest
  rw [Nat.testBit_mod_two_pow, Bool.and_eq_true, decide_eq_true_eq] at hk
  exact ⟨k, hk.1, hk.2, Nat.testBit_log2 h0⟩

/-! ### The parity equations of this build's `ENC` (rule R56) -/

/-- An even check says that its parity bit is the XOR of the rest of its cover set. -/
theorem getLsbD_of_check {N k p : Nat} {w : BitVec N} {S : List Nat} (h : check w k = false)
    (hcover : cover N k = p :: S) : w.getLsbD p = xorOver w S := by
  rw [check, hcover, xorOver_cons] at h
  exact bne_eq_false_iff_eq.mp h

theorem check_encWord (d : Data) {k : Nat} (hk : k < 4) : check (encWord d) k = false := check_familyEnc (M := 8) d hk

theorem overallParity_encWord (d : Data) : overallParity (encWord d) = false := overallParity_familyEnc 8 d

theorem syndrome_encWord (d : Data) : syndrome 4 (encWord d) = 0 := syndrome_familyEnc 8 d

theorem getLsbD_extract {N : Nat} (M : Nat) (w : BitVec N) {i : Nat} (hi : i < M) :
    (extract M w).getLsbD i = w.getLsbD (dpos i) := by
  rw [extract, getLsbD_wordOf, decide_eq_true hi, Bool.true_and]

theorem extract_encWord (d : Data) : extract 8 (encWord d) = d := extract_familyEnc 8 d

theorem getLsbD_encWord_dpos (d : Data) {i : Nat} (hi : i < 8) : (encWord d).getLsbD (dpos i) = d.getLsbD i := by
  rw [← getLsbD_extract 8 _ hi, extract_encWord]

theorem xorOver_encWord_map_dpos (d : Data) {S : List Nat} (hS : ∀ i ∈ S, i < 8) :
    xorOver (encWord d) (S.map dpos) = xorOver d S := by
  induction S with
  | nil => rfl
  | cons i S ih =>
    rw [List.map_cons, xorOver_cons, xorOver_cons, getLsbD_encWord_dpos d (hS i (by simp)),
      ih fun j hj => hS j (by simp [hj])]

/-- A Hamming bit is the XOR of the data bits its parity bit covers. -/
theorem getLsbD_encWord_two_pow (d : Data) {k : Nat} {S : List Nat} (hk : k < 4) (hS : ∀ i ∈ S, i < 8)
    (hcover : cover 13 k = 2 ^ k :: S.map dpos) : (encWord d).getLsbD (2 ^ k) = xorOver d S :=
  (getLsbD_of_check (check_encWord d hk) hcover).trans (xorOver_encWord_map_dpos d hS)

theorem xorOver_perm {N : Nat} (w : BitVec N) {S T : List Nat} (h : S.Perm T) : xorOver w S = xorOver w T :=
  h.foldr_eq' (f := fun j acc => w.getLsbD j ^^ acc) (fun _ _ _ _ _ => Bool.xor_left_comm _ _ _) false

/-- The overall parity bit is the XOR of the four Hamming bits and the eight data bits. -/
theorem getLsbD_encWord_zero (d : Data) :
    (encWord d).getLsbD 0 = (xorOver (encWord d) [1, 2, 4, 8] ^^ xorOver d [0, 1, 2, 3, 4, 5, 6, 7]) := by
  have heven := overallParity_encWord d
  have hperm : (List.range 13).Perm (0 :: ([1, 2, 4, 8] ++ [0, 1, 2, 3, 4, 5, 6, 7].map dpos)) := by decide
  rw [overallParity, xorOver_perm _ hperm, xorOver_cons, xorOver_append,
    xorOver_encWord_map_dpos d (by decide)] at heven
  exact bne_eq_false_iff_eq.mp heven

theorem dpos_eq_getD {i : Nat} (hi : i < 8) : dpos i = [3, 5, 6, 7, 9, 10, 11, 12].getD i 0 := by
  rw [← dpos_eight]
  simp [List.getD, hi]

/-! ### Flipping and extracting (rules R42, R68, R69) -/

theorem getLsbD_flipBit_eq_ite {N : Nat} (w : BitVec N) (p : Nat) {j : Nat} (hj : j < N) :
    (flipBit w p).getLsbD j = if j = p then !w.getLsbD j else w.getLsbD j := by
  rw [getLsbD_flipBit, decide_eq_true hj, Bool.true_and]
  by_cases h : j = p
  · simp [h]
  · simp [h, Ne.symm h]

/-- Extraction reads payload positions only, so a flip elsewhere leaves the payload. -/
theorem extract_flipBit_of_not_payload {N p : Nat} (M : Nat) (w : BitVec N) (hp : isPayload p = false) :
    extract M (flipBit w p) = extract M w := by
  refine BitVec.eq_of_getLsbD_eq fun i hi => ?_
  have hne : p ≠ dpos i := by
    rintro rfl
    rw [isPayload_dpos] at hp
    cases hp
  rw [getLsbD_extract M _ hi, getLsbD_extract M _ hi, getLsbD_flipBit, decide_eq_false hne, Bool.and_false,
    Bool.xor_false]

/-! ### The words of even parity and syndrome 0 (rules R51, R57) -/

/-- Words that agree on all positions of a set but one, and have the same XOR over it, agree there too. -/
theorem getLsbD_eq_of_xorOver_eq {N p : Nat} {a b : BitVec N} {S : List Nat} (hS : S.Nodup) (hp : p ∈ S) (hpN : p < N)
    (hrest : ∀ j ∈ S, j ≠ p → a.getLsbD j = b.getLsbD j) (hx : xorOver a S = xorOver b S) :
    a.getLsbD p = b.getLsbD p := by
  by_contra hne
  have hflip : xorOver b S = xorOver (flipBit a p) S := by
    refine xorOver_congr fun j hj => ?_
    by_cases h : j = p
    · rw [h, getLsbD_flipBit, decide_eq_true hpN]
      simpa using Bool.eq_not_of_ne (Ne.symm hne)
    · rw [getLsbD_flipBit, decide_eq_false (Ne.symm h), Bool.and_false, Bool.xor_false, hrest j hj h]
  rw [xorOver_flipBit a p hpN hS, hx] at hflip
  simp [hp] at hflip

theorem getLsbD_familyEnc_extract_payload {M j : Nat} (w : BitVec (cwWidth M)) (hj : j < cwWidth M)
    (hp : isPayload j = true) : w.getLsbD j = (familyEnc M (extract M w)).getLsbD j := by
  have hi := dataIndex_lt_of_lt_cwWidth hp hj
  rw [← dpos_dataIndex hp, ← getLsbD_extract M w hi, ← getLsbD_extract M _ hi, extract_familyEnc]

theorem getLsbD_familyEnc_extract_two_pow {M k : Nat} {w : BitVec (cwWidth M)} (hsyn : syndrome (rmin M) w = 0)
    (hk : k < rmin M) : w.getLsbD (2 ^ k) = (familyEnc M (extract M w)).getLsbD (2 ^ k) := by
  have hlt := two_pow_lt_cwWidth hk
  refine getLsbD_eq_of_xorOver_eq (cover_nodup _ k) ((two_pow_mem_cover_iff _ k k).mpr ⟨hlt, rfl⟩) hlt
    (fun j hj hne => ?_) (((syndrome_eq_zero_iff _ _).mp hsyn k hk).trans (check_familyEnc _ hk).symm)
  exact getLsbD_familyEnc_extract_payload w ((mem_cover k j).mp hj).1 (isPayload_of_mem_cover hj hne)

/-- A word that passes every check and has even parity is the codeword of its payload: the payload positions agree,
then each Hamming bit by its check, then bit 0 by the overall parity. -/
theorem eq_familyEnc_extract {M : Nat} {w : BitVec (cwWidth M)} (heven : overallParity w = false)
    (hsyn : syndrome (rmin M) w = 0) : w = familyEnc M (extract M w) := by
  have hwalk : ∀ j < cwWidth M, j ≠ 0 → w.getLsbD j = (familyEnc M (extract M w)).getLsbD j := by
    intro j hj h0
    by_cases hpow : ∃ k, j = 2 ^ k
    · obtain ⟨k, rfl⟩ := hpow
      have hk : k < rmin M := (Nat.pow_lt_pow_iff_right (by decide)).mp (hj.trans_le (cwWidth_le_two_pow M))
      exact getLsbD_familyEnc_extract_two_pow hsyn hk
    · exact getLsbD_familyEnc_extract_payload w hj ((isPayload_iff j).mpr ⟨h0, hpow⟩)
  refine BitVec.eq_of_getLsbD_eq fun j hj => ?_
  by_cases h0 : j = 0
  · rw [h0]
    exact getLsbD_eq_of_xorOver_eq List.nodup_range (List.mem_range.mpr (by omega)) (by omega)
      (fun i hi => hwalk i (List.mem_range.mp hi)) (heven.trans (overallParity_familyEnc M _).symm)
  · exact hwalk j hj h0

/-! ### The four groups of words (rules R51, R62) -/

theorem even_zero_iff (w : Codeword) : (overallParity w = false ∧ syndrome 4 w = 0) ↔ ∃ d, w = encWord d := by
  constructor
  · rintro ⟨ho, hs⟩
    exact ⟨extract 8 w, eq_familyEnc_extract (M := 8) ho hs⟩
  · rintro ⟨d, rfl⟩
    exact ⟨overallParity_encWord d, syndrome_encWord d⟩

/-- Every position of the word is below `2^4`, so a flip moves the syndrome by the position. -/
theorem syndrome_flipBit_codeword (w : Codeword) {p : Nat} (hp : p < 13) :
    syndrome 4 (flipBit w p) = syndrome 4 w ^^^ p := syndrome_flipBit w hp (by omega)

theorem odd_lt_iff (w : Codeword) :
    (overallParity w = true ∧ syndrome 4 w < 13) ↔ ∃ d p, p < 13 ∧ w = flipBit (encWord d) p := by
  constructor
  · rintro ⟨ho, hs⟩
    obtain ⟨d, hd⟩ := (even_zero_iff (flipBit w (syndrome 4 w))).mp
      ⟨by rw [overallParity_flipBit w _ hs, ho, Bool.not_true], by
        rw [syndrome_flipBit_codeword w hs, Nat.xor_self]⟩
    exact ⟨d, syndrome 4 w, hs, by rw [← hd, flipBit_flipBit]⟩
  · rintro ⟨d, p, hp, rfl⟩
    rw [overallParity_flipBit _ p hp, overallParity_encWord, syndrome_flipBit_codeword _ hp, syndrome_encWord,
      Nat.zero_xor]
    exact ⟨rfl, hp⟩

/-- Every syndrome but 0 is the XOR of two positions of the word. -/
theorem exists_two_positions {n : Nat} (hn : n < 16) (h0 : n ≠ 0) : ∃ p q, p < 13 ∧ q < 13 ∧ p ≠ q ∧ n = p ^^^ q := by
  by_cases h : n < 13
  · exact ⟨0, n, by decide, h, h0.symm, (Nat.zero_xor n).symm⟩
  · obtain rfl | rfl | rfl : n = 13 ∨ n = 14 ∨ n = 15 := by omega
    · exact ⟨1, 12, by decide⟩
    · exact ⟨2, 12, by decide⟩
    · exact ⟨3, 12, by decide⟩

theorem even_ne_zero_iff (w : Codeword) :
    (overallParity w = false ∧ syndrome 4 w ≠ 0) ↔
      ∃ d p q, p < 13 ∧ q < 13 ∧ p ≠ q ∧ w = flipBit (flipBit (encWord d) p) q := by
  constructor
  · rintro ⟨ho, hs⟩
    obtain ⟨p, q, hp, hq, hpq, hx⟩ := exists_two_positions (syndrome_lt 4 w) hs
    obtain ⟨d, hd⟩ := (even_zero_iff (flipBit (flipBit w q) p)).mp
      ⟨by rw [overallParity_flipBit _ p hp, overallParity_flipBit w q hq, ho]; rfl, by
        rw [syndrome_flipBit_codeword _ hp, syndrome_flipBit_codeword w hq, hx, Nat.xor_assoc, Nat.xor_comm q,
          Nat.xor_self]⟩
    exact ⟨d, p, q, hp, hq, hpq, by rw [← hd, flipBit_flipBit, flipBit_flipBit]⟩
  · rintro ⟨d, p, q, hp, hq, hpq, rfl⟩
    rw [overallParity_flipBit _ q hq, overallParity_flipBit _ p hp, overallParity_encWord,
      syndrome_flipBit_codeword _ hq, syndrome_flipBit_codeword _ hp, syndrome_encWord, Nat.zero_xor]
    exact ⟨rfl, fun h => hpq (Nat.xor_eq_zero_iff.mp h)⟩

/-- A contract input is a word of one of the first three groups: it has even parity, or its syndrome names a position. -/
theorem contractInput_iff (w : Codeword) : ContractInput w ↔ (overallParity w = true → syndrome 4 w < 13) := by
  constructor
  · rintro ⟨d, E, hnodup, hlen, hE, rfl⟩ hodd
    match E with
    | [] =>
      rw [flipAll_nil, overallParity_encWord] at hodd
      cases hodd
    | [p] => exact ((odd_lt_iff _).mpr ⟨d, p, hE p (by simp), rfl⟩).2
    | [p, q] =>
      obtain ⟨heven, -⟩ := (even_ne_zero_iff _).mpr
        ⟨d, p, q, hE p (by simp), hE q (by simp), by simpa using hnodup, rfl⟩
      exact absurd (heven.symm.trans hodd) Bool.false_ne_true
    | _ :: _ :: _ :: _ => simp at hlen
  · intro h
    cases ho : overallParity w with
    | true =>
      obtain ⟨d, p, hp, rfl⟩ := (odd_lt_iff w).mp ⟨ho, h ho⟩
      exact ⟨d, [p], by simp, by simp, by simpa using hp, rfl⟩
    | false =>
      by_cases hs : syndrome 4 w = 0
      · obtain ⟨d, rfl⟩ := (even_zero_iff w).mp ⟨ho, hs⟩
        exact ⟨d, [], by simp, by simp, by simp, rfl⟩
      · obtain ⟨d, p, q, hp, hq, hpq, rfl⟩ := (even_ne_zero_iff w).mp ⟨ho, hs⟩
        exact ⟨d, [p, q], by simpa using hpq, by simp, by simp [hp, hq], rfl⟩

/-! ### `DECB` (rules R53, R119) -/

/-- What `DECB` returns for a result (log entry 12). -/
def replyOfResult : DecResult 8 → Reply
  | .noError p => .byte (byteOfBits p)
  | .oneError p _ => .byte (byteOfBits p)
  | .doubleError => .noByte

theorem runRequest_decb_of_decWord {w f : Codeword} {r : DecResult 8} (s : State)
    (h : decWord Config.oorPolicy w = some (r, f)) :
    runRequest (.decb w) s = .next ((s.withDec w (portsOfResult 4 r f)).withReply (replyOfResult r)) := by
  have hrun : runRequest (.decb w) s = replyByte (s.withDec w (portsOfResult 4 r f)) := by
    rw [runRequest, execDecb, show execDec w s = _ from exec_dec_of_ports s (decPorts_eq h)]
  rw [hrun, replyByte, State.withDec_decOut, classOfStatus_portsOfResult]
  cases r <;> rfl

/-! ### The statements -/

/-- Settles O8: `rdec N ≤ r` is `N ≤ 2^r`, which a codeword width meets first at `rmin M`; between `2^r + 2` and
`2^(r+1)` every width is one of `r + 1` parity bits, and `2^r + 1` is none. -/
theorem decoderWidths : Obligations.DecoderWidths := by
  refine ⟨fun M => ⟨rdec_cwWidth M, (payloadOfWidth_eq_some_iff _ M).mpr rfl⟩,
    fun N M => (payloadOfWidth_eq_some_iff N M).mp, fun N => ?_⟩
  rw [payloadOfWidth_eq_none_iff]
  constructor
  · intro hnone
    by_contra h
    obtain ⟨h0, hpow⟩ := not_or.mp h
    obtain ⟨M, hM⟩ := exists_eq_cwWidth h0 (not_exists.mp hpow)
    exact hnone M hM
  · rintro (rfl | ⟨k, rfl⟩) M
    · unfold cwWidth
      omega
    · exact two_pow_add_one_ne_cwWidth k M

/-- Settles O9: `dataIndex` counts the payload positions, grows at each of them, and is `M` at the end of the word. -/
theorem payloadPositions : Obligations.PayloadPositions :=
  ⟨fun M => ⟨dataIndex_cwWidth M, countP_hamming_cwWidth M⟩,
    fun i => ⟨isPayload_dpos i, dataIndex_dpos i, dpos_lt_dpos_succ i⟩, fun _ => dpos_dataIndex,
    fun _ _ => dpos_lt_cwWidth⟩

/-- Settles O10: cover `k` is the positions with bit `k`; a power of two has one bit, a payload position two or more. -/
theorem coverSets : Obligations.CoverSets := by
  refine fun M => ⟨fun k hk => (two_pow_mem_cover_iff _ k k).mpr ⟨two_pow_lt_cwWidth hk, rfl⟩,
    fun k k' hne h => hne ((two_pow_mem_cover_iff _ k k').mp h).2, fun k => zero_notMem_cover _ k, ?_⟩
  intro j hj hp
  obtain ⟨k, hk, hbit, htop⟩ := exists_two_testBits hp
  have htopR : j.log2 < rmin M :=
    (Nat.log2_lt ((isPayload_iff j).mp hp).1).mpr (hj.trans_le (cwWidth_le_two_pow M))
  exact ⟨k, j.log2, hk, htopR, (mem_cover k j).mpr ⟨hj, hbit⟩, (mem_cover _ j).mpr ⟨hj, htop⟩⟩

/-- Settles O11: the data bits stand at the payload positions, each even check gives its Hamming bit, and the even
overall parity gives bit 0, whose closed form is what is left when the Hamming bits are put in. -/
theorem encCompletesWithItsEquations : Obligations.EncCompletesWithItsEquations := by
  intro d s
  refine ⟨_, exec_enc d s, rfl, fun i hi => ?_, ?_⟩
  · rw [State.withEnc_encCw, ← dpos_eq_getD hi, getLsbD_encWord_dpos d hi]
  rw [State.withEnc_encCw]
  have h1 : (encWord d).getLsbD 1 = xorOver d [0, 1, 3, 4, 6] :=
    getLsbD_encWord_two_pow d (k := 0) (by decide) (by decide) (by decide)
  have h2 : (encWord d).getLsbD 2 = xorOver d [0, 2, 3, 5, 6] :=
    getLsbD_encWord_two_pow d (k := 1) (by decide) (by decide) (by decide)
  have h4 : (encWord d).getLsbD 4 = xorOver d [1, 2, 3, 7] :=
    getLsbD_encWord_two_pow d (k := 2) (by decide) (by decide) (by decide)
  have h8 : (encWord d).getLsbD 8 = xorOver d [4, 5, 6, 7] :=
    getLsbD_encWord_two_pow d (k := 3) (by decide) (by decide) (by decide)
  have h0 := getLsbD_encWord_zero d
  simp only [xorOver_cons, xorOver_nil, Bool.xor_false, ← Bool.xor_assoc] at h0 h1 h2 h4 h8
  refine ⟨h1, h2, h4, h8, ?_, h0⟩
  rw [h0, h1, h2, h4, h8]
  simp [Bool.xor_comm, Bool.xor_left_comm]

/-- Settles O17: one equation of the ports for each row of rule R66. -/
theorem decCompletesWithItsClass : Obligations.DecCompletesWithItsClass := by
  intro w s
  obtain ⟨o, ho, hrun⟩ := exec_dec w s
  refine ⟨_, hrun, rfl, fun heven hs => ?_, fun hodd => ?_, fun heven hs => ?_⟩
  · cases ho.symm.trans (decPorts_of_even_zero _ heven hs)
    exact ⟨rfl, rfl, rfl, rfl⟩
  · have hpos : ∀ k < 4, (BitVec.ofNat 4 (syndrome 4 w)).getLsbD k = check w k := fun k hk => by
      rw [BitVec.getLsbD_ofNat, testBit_syndrome, decide_eq_true hk, Bool.true_and, Bool.true_and]
    rcases Nat.lt_or_ge (syndrome 4 w) 13 with hs | hs
    · cases ho.symm.trans (decPorts_of_odd _ hodd hs)
      exact ⟨rfl, toNat_ofNat_syndrome w, hpos, rfl, fun _ j hj => getLsbD_flipBit_eq_ite w _ hj,
        fun h => absurd hs (not_lt.mpr h)⟩
    · cases ho.symm.trans (decPorts_of_odd_beyond hodd hs)
      exact ⟨rfl, toNat_ofNat_syndrome w, hpos, rfl, fun h => absurd h (not_lt.mpr hs), fun _ => rfl⟩
  · cases ho.symm.trans (decPorts_of_even_nonzero _ heven hs)
    exact ⟨rfl, rfl, rfl, rfl⟩

/-- Settles O21: the row of odd parity, whose payload is extracted from the flipped word. -/
theorem oneErrorFlipsThenExtracts : Obligations.OneErrorFlipsThenExtracts := fun pol M R _ w hodd hs =>
  ⟨_, _, decodeAt_of_odd pol M R hodd hs, fun _ hj => getLsbD_flipBit_eq_ite w _ hj,
    fun _ hi => getLsbD_extract M _ hi, extract_flipBit_of_not_payload M w⟩

/-- Settles O33: flipping the position or the two positions that the syndrome names leads back to a word of even parity
and syndrome 0, and such a word is the codeword of its payload. -/
theorem wordsFallIntoFourGroups : Obligations.WordsFallIntoFourGroups := by
  refine fun w => ⟨even_zero_iff w, odd_lt_iff w, even_ne_zero_iff w, ?_⟩
  rw [contractInput_iff, Classical.not_imp, not_lt]

/-- Settles O36: the consumer of `DECB` returns what the guarantees of O28 say at this build's width. -/
theorem byteOperations : Obligations.ByteOperations := by
  intro b s
  refine ⟨_, exec_enc (bitsOfByte b) s, rfl, ?_, fun p hp => ?_, fun p q hp hq hpq => ?_⟩
  · refine ⟨_, runRequest_decb_of_decWord _ (familyDec_familyEnc Config.oorPolicy 8 (bitsOfByte b)), ?_⟩
    rw [State.withReply_reply, replyOfResult, byteOfBits_bitsOfByte]
  · refine ⟨_, runRequest_decb_of_decWord _ (familyDec_one_flip Config.oorPolicy (M := 8) (bitsOfByte b) hp), ?_⟩
    rw [State.withReply_reply, replyOfResult, byteOfBits_bitsOfByte]
  · exact ⟨_, runRequest_decb_of_decWord _
      (familyDec_two_flips Config.oorPolicy (M := 8) (bitsOfByte b) hp hq hpq), rfl⟩

end Sys2Proof.Machine

/-!
`ENC` as a code: it is linear, its codewords are at least four flips apart, and `DEC` undoes it at the ports
(spec/40_encoder.md rules R57, R58, R61; spec/41_decoder.md rule R74).
-/

namespace Sys2Proof.Machine

/-! ### Linearity (rule R58) -/

theorem extract_xor {N : Nat} (M : Nat) (u v : BitVec N) : extract M (u ^^^ v) = extract M u ^^^ extract M v := by
  simp only [extract, BitVec.getLsbD_xor, wordOf_xor]

/-- The XOR of two codewords passes every check, so it is the codeword of its payload. -/
theorem familyEnc_xor (M : Nat) (a b : BitVec M) : familyEnc M (a ^^^ b) = familyEnc M a ^^^ familyEnc M b := by
  have heven : overallParity (familyEnc M a ^^^ familyEnc M b) = false := by
    rw [overallParity_xor, overallParity_familyEnc, overallParity_familyEnc, Bool.xor_self]
  have hsyn : syndrome (rmin M) (familyEnc M a ^^^ familyEnc M b) = 0 :=
    (syndrome_eq_zero_iff _ _).mpr fun k hk => by
      rw [check_xor, check_familyEnc a hk, check_familyEnc b hk, Bool.xor_self]
  have hpayload : extract M (familyEnc M a ^^^ familyEnc M b) = a ^^^ b := by
    rw [extract_xor, extract_familyEnc, extract_familyEnc]
  exact (hpayload ▸ eq_familyEnc_extract heven hsyn).symm

theorem familyEnc_zero (M : Nat) : familyEnc M 0 = 0 := by
  have h := familyEnc_xor M 0 0
  rwa [BitVec.xor_self, BitVec.xor_self] at h

theorem familyEnc_injective (M : Nat) : Function.Injective (familyEnc M) :=
  Function.LeftInverse.injective (extract_familyEnc M)

/-! ### Distance (rule R61) -/

/-- The positions at which two words differ. -/
def differences {N : Nat} (u v : BitVec N) : List Nat :=
  (List.range N).filter (fun j => u.getLsbD j != v.getLsbD j)

theorem mem_differences {N j : Nat} (u v : BitVec N) :
    j ∈ differences u v ↔ j < N ∧ u.getLsbD j ≠ v.getLsbD j := by
  rw [differences, List.mem_filter, List.mem_range, bne_iff_ne]

theorem differences_nodup {N : Nat} (u v : BitVec N) : (differences u v).Nodup := List.nodup_range.filter _

theorem getLsbD_flipAll {N j : Nat} (w : BitVec N) (hj : j < N) {E : List Nat} (hE : E.Nodup) :
    (flipAll w E).getLsbD j = (w.getLsbD j ^^ decide (j ∈ E)) := by
  induction E generalizing w with
  | nil => simp
  | cons p E ih =>
    obtain ⟨hp, hE⟩ := List.nodup_cons.mp hE
    rw [flipAll_cons, ih _ hE, getLsbD_flipBit_eq_ite w p hj]
    by_cases h : j = p
    · subst h
      simp [hp]
    · simp [h]

/-- Flipping the positions at which two words differ turns one into the other. -/
theorem flipAll_differences {N : Nat} (u v : BitVec N) : flipAll u (differences u v) = v := by
  refine BitVec.eq_of_getLsbD_eq fun j hj => ?_
  rw [getLsbD_flipAll u hj (differences_nodup u v)]
  by_cases h : u.getLsbD j = v.getLsbD j
  · rw [decide_eq_false (fun hmem => ((mem_differences u v).mp hmem).2 h), Bool.xor_false, h]
  · rw [decide_eq_true ((mem_differences u v).mpr ⟨hj, h⟩), Bool.xor_true]
    exact (Bool.eq_not_of_ne (Ne.symm h)).symm

/-- Fewer than four flips do not lead from a codeword to the codeword of another payload: `DEC` corrects one flip and
detects two, and three flips would make one flip of the one codeword two flips of the other. -/
theorem four_le_length_of_flipAll_familyEnc {M : Nat} {a b : BitVec M} {E : List Nat} (hE : E.Nodup)
    (hlt : ∀ p ∈ E, p < cwWidth M) (hab : a ≠ b) (h : flipAll (familyEnc M a) E = familyEnc M b) : 4 ≤ E.length := by
  match E with
  | [] => exact absurd (familyEnc_injective M h) hab
  | [p] =>
    have hone := familyDec_one_flip .reportNoFlip a (hlt p (by simp))
    rw [show flipBit (familyEnc M a) p = familyEnc M b from h, familyDec_familyEnc] at hone
    cases hone
  | [p, q] =>
    have htwo := familyDec_two_flips .reportNoFlip a (hlt p (by simp)) (hlt q (by simp)) (by simpa using hE)
    rw [show flipBit (flipBit (familyEnc M a) p) q = familyEnc M b from h, familyDec_familyEnc] at htwo
    cases htwo
  | [p, q, r] =>
    have hpq : p ≠ q := fun heq => (List.nodup_cons.mp hE).1 (by simp [heq])
    have htwo := familyDec_two_flips .reportNoFlip a (hlt p (by simp)) (hlt q (by simp)) hpq
    have hback : flipBit (flipBit (familyEnc M a) p) q = flipBit (familyEnc M b) r := by
      rw [← h, flipAll_cons, flipAll_cons, flipAll_cons, flipAll_nil, flipBit_flipBit]
    rw [hback, familyDec_one_flip .reportNoFlip b (hlt r (by simp))] at htwo
    cases htwo
  | _ :: _ :: _ :: _ :: _ => simp

/-! ### The statements -/

/-- Settles O15: the positions at which the two codewords differ are flips that lead from one to the other. -/
theorem codewordsAreFarApart : Obligations.CodewordsAreFarApart := by
  intro M a b hab
  rw [List.countP_eq_length_filter]
  exact four_le_length_of_flipAll_familyEnc (differences_nodup _ _) (fun _ hp => ((mem_differences _ _).mp hp).1) hab
    (flipAll_differences (familyEnc M a) (familyEnc M b))

/-- Settles O13: the words that pass every check are closed under XOR, and a codeword is fixed by its payload. -/
theorem encIsLinear : Obligations.EncIsLinear := fun M => ⟨familyEnc_zero M, familyEnc_xor M⟩

/-- Settles O25: the decoder's NoError row on a codeword, at this build's width and under any policy. -/
theorem roundTrip : Obligations.RoundTrip := by
  intro d s
  have hports : ∀ pol, decPorts pol (encWord d) = some (portsOfResult 4 (.noError d) (encWord d)) :=
    fun pol => decPorts_eq (familyDec_familyEnc pol 8 d)
  exact ⟨_, _, exec_enc d s, exec_dec_of_ports _ (hports _), fun pol => execDecWith_of_ports _ (hports pol),
    rfl, rfl, rfl, rfl⟩

end Sys2Proof.Machine

/-!
`DEC` of this build and of the family: its signals and its table in closed form, what any set of flips of a codeword
shows to it, and what the reads of the array do with the words it corrects (spec/41_decoder.md rules R62 to R76;
spec/42_array_environment.md rules R90 to R92).
-/

namespace Sys2Proof.Machine

/-! ### Policies (rules R66, R72) -/

/-- Under `report_no_flip` every word has a result. -/
theorem exists_decodeAt_reportNoFlip {N : Nat} (M R : Nat) (w : BitVec N) :
    ∃ r, decodeAt .reportNoFlip M R w = some r := by
  cases ho : overallParity w with
  | false =>
    by_cases hs : syndrome R w = 0
    · exact ⟨_, decodeAt_of_even_zero _ M R ho hs⟩
    · exact ⟨_, decodeAt_of_even_nonzero _ M R ho hs⟩
  | true =>
    rcases Nat.lt_or_ge (syndrome R w) N with hs | hs
    · exact ⟨_, decodeAt_of_odd _ M R ho hs⟩
    · exact ⟨_, decodeAt_of_odd_beyond _ M R ho hs⟩

/-- The policy is asked only where the parity is odd and the syndrome names no position. -/
theorem decodeAt_policy_irrelevant {N : Nat} (M : Nat) {R : Nat} {w : BitVec N}
    (h : overallParity w = true → syndrome R w < N) (pol pol' : OorPolicy) :
    decodeAt pol M R w = decodeAt pol' M R w := by
  cases ho : overallParity w with
  | false =>
    by_cases hs : syndrome R w = 0
    · rw [decodeAt_of_even_zero _ M R ho hs, decodeAt_of_even_zero _ M R ho hs]
    · rw [decodeAt_of_even_nonzero _ M R ho hs, decodeAt_of_even_nonzero _ M R ho hs]
  | true => rw [decodeAt_of_odd _ M R ho (h ho), decodeAt_of_odd _ M R ho (h ho)]

theorem decPorts_policy_irrelevant {w : Codeword} (h : overallParity w = true → syndrome 4 w < 13)
    (pol pol' : OorPolicy) : decPorts pol w = decPorts pol' w := by
  rw [decPorts, decWord, decodeAt_policy_irrelevant 8 h pol pol', decPorts, decWord]

theorem execDecWith_fault_of_odd_beyond {w : Codeword} (ho : overallParity w = true) (hs : 13 ≤ syndrome 4 w)
    (s : State) : execDecWith .fault w s = .fault .syndromeNamesNoPosition := by
  simp only [execDecWith, driveDec, decPorts, decWord, decodeAt_of_odd_beyond _ 8 4 ho hs]

/-! ### Any flips (rule R74) -/

theorem overallParity_flipAll {N : Nat} (w : BitVec N) {E : List Nat} (hE : ∀ p ∈ E, p < N) :
    overallParity (flipAll w E) = (overallParity w ^^ (E.length % 2 == 1)) := by
  induction E generalizing w with
  | nil => simp
  | cons p E ih =>
    rw [flipAll_cons, ih _ fun q hq => hE q (by simp [hq]), overallParity_flipBit w p (hE p (by simp)),
      List.length_cons]
    rcases Nat.mod_two_eq_zero_or_one E.length with h | h
    · simp [h, Nat.succ_mod_two_eq_one_iff.mpr h]
    · simp [h, Nat.succ_mod_two_eq_zero_iff.mpr h]

theorem syndrome_flipAll {N R : Nat} (hN : N ≤ 2 ^ R) (w : BitVec N) {E : List Nat} (hE : ∀ p ∈ E, p < N) :
    syndrome R (flipAll w E) = E.foldl (· ^^^ ·) (syndrome R w) := by
  induction E generalizing w with
  | nil => rfl
  | cons p E ih =>
    have hp := hE p (by simp)
    rw [flipAll_cons, ih _ fun q hq => hE q (by simp [hq]), syndrome_flipBit w hp (hp.trans_le hN), List.foldl_cons]

theorem overallParity_flipAll_encWord (d : Data) {E : List Nat} (hE : ∀ p ∈ E, p < 13) :
    overallParity (flipAll (encWord d) E) = (E.length % 2 == 1) := by
  rw [overallParity_flipAll _ hE, overallParity_encWord, Bool.false_xor]

theorem syndrome_flipAll_encWord (d : Data) {E : List Nat} (hE : ∀ p ∈ E, p < 13) :
    syndrome 4 (flipAll (encWord d) E) = E.foldl (· ^^^ ·) 0 := by
  rw [syndrome_flipAll (by decide) _ hE, syndrome_encWord]

/-- A set of flips that is not empty changes the word. -/
theorem flipAll_ne {N : Nat} (w : BitVec N) {E : List Nat} (hnodup : E.Nodup) (hE : ∀ p ∈ E, p < N) (hne : E ≠ []) :
    flipAll w E ≠ w := by
  obtain ⟨p, hp⟩ := List.exists_mem_of_ne_nil E hne
  intro h
  have hbit := getLsbD_flipAll w (hE p hp) hnodup
  rw [h] at hbit
  simp [hp] at hbit

/-- A set of flips that is not empty and leads from a codeword to a codeword changes the payload. -/
theorem payload_ne_of_flipAll_eq {d d' : Data} {E : List Nat} (hnodup : E.Nodup) (hE : ∀ p ∈ E, p < 13) (hne : E ≠ [])
    (h : flipAll (encWord d) E = encWord d') : d' ≠ d := by
  rintro rfl
  exact flipAll_ne _ hnodup hE hne h

theorem xor_xor_ne_left {p q r : Nat} (h : q ≠ r) : p ^^^ q ^^^ r ≠ p := by
  intro heq
  have hzero : q ^^^ r = 0 := Nat.xor_right_inj.mp ((Nat.xor_assoc p q r).symm.trans (heq.trans (Nat.xor_zero p).symm))
  exact h (Nat.xor_eq_zero_iff.mp hzero)

/-! ### The corrected word (rule R76) -/

/-- Where the decoder names no error, or one at a position of the word, `dec_cw_fixed` is the codeword of `dec_data`. -/
theorem cwFixed_eq_encWord_data {pol : OorPolicy} {w : Codeword} {p : DecOut 8 4 13} (hw : ByteReadable w)
    (hp : decPorts pol w = some p) : p.cwFixed = encWord p.data := by
  rcases hw with hw | hw
  · obtain ⟨d, rfl⟩ := (even_zero_iff w).mp hw
    cases hp.symm.trans (decPorts_eq (familyDec_familyEnc pol 8 d))
    rfl
  · obtain ⟨d, e, he, rfl⟩ := (odd_lt_iff w).mp hw
    cases hp.symm.trans (decPorts_eq (familyDec_one_flip pol (M := 8) d he))
    rfl

theorem decPorts_encWord (pol : OorPolicy) (d : Data) : decPorts pol (encWord d) = some ⟨0#2, 0#4, d, encWord d⟩ :=
  decPorts_eq (familyDec_familyEnc pol 8 d)

/-- A word of even parity is left as it came. -/
theorem cwFixed_of_even {pol : OorPolicy} {w : Codeword} {p : DecOut 8 4 13} (ho : overallParity w = false)
    (hp : decPorts pol w = some p) : p.cwFixed = w := by
  by_cases hs : syndrome 4 w = 0
  · cases hp.symm.trans (decPorts_of_even_zero pol ho hs)
    rfl
  · cases hp.symm.trans (decPorts_of_even_nonzero pol ho hs)
    rfl

/-! ### Reads of codewords -/

/-- The words at the offsets from `o` on are the codewords of the bytes. -/
def StoresBytes (ds : Memory) (o : Nat) (bytes : List Byte) : Prop :=
  ∀ k b, bytes[k]? = some b → gather ds (o + k) = some (encWord (bitsOfByte b))

theorem StoresBytes.tail {ds : Memory} {o : Nat} {b : Byte} {bytes : List Byte} (h : StoresBytes ds o (b :: bytes)) :
    StoresBytes ds (o + 1) bytes := by
  intro k c hc
  rw [Nat.add_assoc, Nat.add_comm 1 k]
  exact h (k + 1) c hc

theorem readByte_of_encWord {pol : OorPolicy} {o : Nat} {s : State} {b : Byte}
    (h : gather s.array.disks o = some (encWord (bitsOfByte b))) :
    ∃ p, readByte pol o s = .clean b (s.withDec (encWord (bitsOfByte b)) p) := by
  have hread := (readByte_of_ports h (decPorts_encWord pol _)).trans (acceptByte_of_noError rfl)
  rw [State.withDec_decOut, byteOfBits_bitsOfByte] at hread
  exact ⟨_, hread⟩

/-- A read over codewords returns their bytes and repairs nothing. -/
theorem readBytes_of_storesBytes (pol : OorPolicy) (kind : FileKind) {bytes : List Byte} {o : Nat} (acc : List Byte)
    {s : State} (h : StoresBytes s.array.disks o bytes) :
    ∃ t, readBytes pol kind bytes.length o acc s = .next t ∧ t.reply = some (.contents kind (acc ++ bytes)) ∧
      t.array = s.array := by
  induction bytes generalizing o acc s with
  | nil => exact ⟨_, readBytes_zero pol kind o acc s, by simp, rfl⟩
  | cons b bytes ih =>
    obtain ⟨p, hclean⟩ := readByte_of_encWord (pol := pol) (h 0 b rfl)
    obtain ⟨t, hrun, hreply, harray⟩ := ih (acc ++ [b]) (s := s.withDec (encWord (bitsOfByte b)) p) h.tail
    refine ⟨t, (readBytes_of_clean hclean kind bytes.length acc).trans hrun, ?_, harray⟩
    rw [hreply, List.append_assoc, List.singleton_append]

/-! ### What a read leaves -/

theorem runRequest_readFile_directory {name : String} {s t : State} (h : runRequest (.readFile name) s = .next t) :
    t.array.directory = s.array.directory := by
  cases hlook : lookup Config.dupNamePolicy s.array.directory name with
  | none =>
    cases (runRequest_readFile_of_absent hlook).symm.trans h
    rfl
  | some r =>
    rw [runRequest_readFile_of_lookup hlook] at h
    exact readBytes_keeps (P := fun u => u.array.directory = s.array.directory) (fun _ _ _ _ hu => hu)
      (fun _ _ _ _ _ _ _ _ hu => hu) (fun _ _ hu => hu) _ _ _ s t le_rfl le_rfl h rfl

/-- A read that succeeds has found a record, met readable words only, and decoded and repaired each of them. -/
theorem runRequest_readFile_success {s t : State} {name : String} {kind : FileKind} {bytes : List Byte}
    (hs : StateInv s) (h : runRequest (.readFile name) s = .next t) (hreply : t.reply = some (.contents kind bytes)) :
    ∃ r, lookup Config.dupNamePolicy s.array.directory name = some r ∧ kind = r.kind ∧
      r.endPos - r.startPos = bytes.length ∧
      (∀ k < bytes.length, ∃ w, gather s.array.disks (r.startPos + k) = some w ∧ ByteReadable w) ∧
      BytesDecoded s r.startPos bytes ∧ RangeRepaired s t r.startPos bytes.length := by
  cases hlook : lookup Config.dupNamePolicy s.array.directory name with
  | none =>
    cases (runRequest_readFile_of_absent hlook).symm.trans h
    cases hreply
  | some r =>
    obtain ⟨hsize, hused⟩ := hs.directory r (mem_of_lookup hlook).1
    rw [runRequest_readFile_of_lookup hlook] at h
    obtain ⟨m, -, hread, hcase⟩ :=
      readBytes_cases r.kind (r.endPos - r.startPos) r.startPos [] s hs.lockStep (by omega)
    rcases hcase with ⟨rfl, u, bs, hrun, hbs, hlen, hdec, hrep⟩ |
      ⟨-, w, u, -, -, -, hrun, habort, -⟩ | ⟨-, w, -, -, -, hrun⟩
    · rw [List.nil_append] at hbs
      cases hrun.symm.trans h
      cases hbs.symm.trans hreply
      exact ⟨r, rfl, rfl, hlen.symm, fun k hk => hread _ (by omega) (by omega), hdec, hlen ▸ hrep⟩
    · cases hrun.symm.trans h
      cases habort.symm.trans hreply
    · cases hrun.symm.trans h

/-- Where the words of a range were readable, a read that has repaired it leaves the codewords of the bytes it has
decoded. -/
theorem storesBytes_of_repaired {s t : State} {o : Nat} {bytes : List Byte}
    (hread : ∀ k < bytes.length, ∃ w, gather s.array.disks (o + k) = some w ∧ ByteReadable w)
    (hdec : BytesDecoded s o bytes) (hrep : RangeRepaired s t o bytes.length) :
    StoresBytes t.array.disks o bytes := by
  intro k b hb
  have hk : k < bytes.length := (List.getElem?_eq_some_iff.mp hb).1
  obtain ⟨w, hw, hreadable⟩ := hread k hk
  obtain ⟨w₁, p, hw₁, hp, hbyte⟩ := hdec k hk
  obtain ⟨w₂, p₂, hw₂, hp₂, hfixed⟩ := hrep.1 (o + k) (by omega) (by omega)
  cases hw.symm.trans hw₁
  cases hw.symm.trans hw₂
  cases hp.symm.trans hp₂
  cases hb.symm.trans hbyte
  rw [hfixed, cwFixed_eq_encWord_data hreadable hp, bitsOfByte_byteOfBits]

/-! ### The statements -/

/-- Settles O26: O28 at one flip and this build's width, seen at the ports. -/
theorem singleErrorIsCorrected : Obligations.SingleErrorIsCorrected := by
  intro d p s hp
  have hports : ∀ pol, decPorts pol (flipBit (encWord d) p) = some (portsOfResult 4 (.oneError d p) (encWord d)) :=
    fun pol => decPorts_eq (familyDec_one_flip pol (M := 8) d hp)
  exact ⟨_, _, exec_enc d s, exec_dec_of_ports _ (hports _), fun pol => execDecWith_of_ports _ (hports pol),
    rfl, Nat.mod_eq_of_lt (by omega), rfl, rfl⟩

/-- Settles O27: O28 at two flips and this build's width, seen at the ports. -/
theorem doubleErrorIsDetected : Obligations.DoubleErrorIsDetected := by
  intro d p q s hp hq hpq
  have hports : ∀ pol, decPorts pol (flipBit (flipBit (encWord d) p) q)
      = some (portsOfResult 4 .doubleError (flipBit (flipBit (encWord d) p) q)) :=
    fun pol => decPorts_eq (familyDec_two_flips pol (M := 8) d hp hq hpq)
  exact ⟨_, _, exec_enc d s, exec_dec_of_ports _ (hports _), fun pol => execDecWith_of_ports _ (hports pol),
    rfl, rfl, rfl, rfl⟩

/-- Settles O50: a successful read leaves the codewords of the bytes it returns, and a read of codewords returns their
bytes and changes nothing. -/
theorem repairsPersist : Obligations.RepairsPersist := by
  intro s t name kind bytes hs h hreply
  obtain ⟨r, hlook, rfl, hlen, hread, hdec, hrep⟩ := runRequest_readFile_success hs h hreply
  obtain ⟨u, hrun, hcontents, harray⟩ := readBytes_of_storesBytes Config.oorPolicy r.kind []
    (storesBytes_of_repaired hread hdec hrep)
  rw [← runRequest_readFile_directory h] at hlook
  exact ⟨u, by rw [runRequest_readFile_of_lookup hlook, hlen, hrun], hcontents, harray⟩

/-- Settles O51: of the three ends of a read, a contract input excludes the stop, and a double error is not readable. -/
theorem readOfContractWordsCompletes : Obligations.ReadOfContractWordsCompletes := by
  intro s name r hs hlook hcontract
  obtain ⟨hsize, hused⟩ := hs.directory r (mem_of_lookup hlook).1
  have hn : r.endPos - r.startPos = r.size := by omega
  rw [runRequest_readFile_of_lookup hlook, hn]
  obtain ⟨m, -, hread, hcase⟩ := readBytes_cases r.kind r.size r.startPos [] s hs.lockStep (by omega)
  rcases hcase with ⟨rfl, t, bytes, hrun, hreply, hlen, hdec, -⟩ | ⟨hlt, w, t, hg, heven, hne, hrun, hreply, -⟩ |
    ⟨hlt, w, hg, hodd, hbeyond, -⟩
  · refine ⟨t, hrun, .inr ⟨bytes, hreply, hlen, fun k hk => hdec k (by omega)⟩, ?_⟩
    constructor
    · intro h
      cases hreply.symm.trans h
    · rintro ⟨o, w, hlo, hhi, hg, heven, hne⟩
      obtain ⟨v, hv, hreadable⟩ := hread o hlo (by omega)
      cases hv.symm.trans hg
      exact absurd ⟨heven, hne⟩ hreadable.not_stopping.2
  · exact ⟨t, hrun, .inl hreply,
      iff_of_true hreply ⟨r.startPos + m, w, by omega, by omega, hg, heven, hne⟩⟩
  · obtain ⟨v, hv, hin⟩ := hcontract (r.startPos + m) (by omega) (by omega)
    cases hv.symm.trans hg
    exact absurd ((contractInput_iff w).mp hin hodd) (not_lt.mpr hbeyond)

/-- Settles O16: each signal is the XOR over the list its set of positions is. -/
theorem decSignals : Obligations.DecSignals := by
  intro w
  have hov : overallParity w = xorOver w [0, 1, 2, 3, 4, 5, 6, 7, 8, 9, 10, 11, 12] := rfl
  have h0 : check w 0 = xorOver w [1, 3, 5, 7, 9, 11] := congrArg (xorOver w) (by decide)
  have h1 : check w 1 = xorOver w [2, 3, 6, 7, 10, 11] := congrArg (xorOver w) (by decide)
  have h2 : check w 2 = xorOver w [4, 5, 6, 7, 12] := congrArg (xorOver w) (by decide)
  have h3 : check w 3 = xorOver w [8, 9, 10, 11, 12] := congrArg (xorOver w) (by decide)
  simp only [xorOver_cons, xorOver_nil, Bool.xor_false, ← Bool.xor_assoc] at hov h0 h1 h2 h3
  refine ⟨hov, h0, h1, h2, h3, ?_, fun i hi => ?_⟩
  · rw [syndrome_succ, syndrome_succ, syndrome_succ, syndrome_succ]
    simp [syndrome, Nat.mul_comm]
  · rw [getLsbD_extract 8 w hi, dpos_eq_getD hi]

/-- Settles O19: each of the four results an evaluation can have stands on its own row. -/
theorem classificationTable : Obligations.ClassificationTable := by
  intro M R N w
  refine ⟨?_, fun pol r fixed h => ?_⟩
  · obtain ⟨⟨r, fixed⟩, h⟩ := exists_decodeAt_reportNoFlip M R w
    exact ⟨r, fixed, h⟩
  · rcases decodeAt_cases h with ⟨ho, hs, rfl, -⟩ | ⟨ho, -, rfl, -⟩ | ⟨ho, -, -, rfl, -⟩ | ⟨ho, hs, rfl, -⟩
    · simp [resultClass, ho, hs]
    · simp [resultClass, ho]
    · simp [resultClass, ho]
    · simp [resultClass, ho, hs]

/-- Settles O22: on the row of odd parity beyond the word the two values differ; no other row asks for the policy. -/
theorem syndromeBeyondTheWord : Obligations.SyndromeBeyondTheWord := by
  refine fun w s => ⟨fun ⟨ho, hs⟩ => ⟨execDecWith_fault_of_odd_beyond ho hs s, _,
    exec_dec_of_ports s (decPorts_of_odd_beyond ho hs), rfl, toNat_ofNat_syndrome w, rfl, rfl⟩, fun h => ?_⟩
  obtain ⟨o, ho, hrun⟩ := exec_dec w s
  have hsyn : overallParity w = true → syndrome 4 w < 13 := fun hodd => not_le.mp fun hs => h ⟨hodd, hs⟩
  exact ⟨_, execDecWith_of_ports s ((decPorts_policy_irrelevant hsyn _ _).trans ho), hrun⟩

/-- Settles O24: a codeword shows parity and syndrome zero, and each flip toggles the one and moves the other. -/
theorem syndromeOfFlips : Obligations.SyndromeOfFlips := by
  intro M d E hE
  rw [overallParity_flipAll _ hE, syndrome_flipAll (cwWidth_le_two_pow M) _ hE, overallParity_familyEnc,
    syndrome_familyEnc, Bool.false_xor]
  exact ⟨rfl, rfl⟩

/-- Settles O29: a contract input of odd parity has a syndrome that names a position, so the policy is not asked. -/
theorem contractInputsNeedNoPolicy : Obligations.ContractInputsNeedNoPolicy := by
  intro w hw
  have hsyn := (contractInput_iff w).mp hw
  obtain ⟨r, hr⟩ := exists_decodeAt_reportNoFlip 8 4 w
  exact ⟨r, fun pol => (decodeAt_policy_irrelevant 8 hsyn pol _).trans hr, hsyn⟩

/-- Settles O30: the number of flips is the parity and their XOR the syndrome (O24), which O17 reads off the table; where
both are zero the word is a codeword, of another payload. -/
theorem manyFlips : Obligations.ManyFlips := by
  intro d E s hnodup hE hne
  obtain ⟨t, hrun, -, hnone, hone, htwo⟩ := decCompletesWithItsClass (flipAll (encWord d) E) s
  rw [overallParity_flipAll_encWord d hE, syndrome_flipAll_encWord d hE] at hnone hone htwo
  refine ⟨t, hrun, fun hodd => ?_, fun heven hx => ?_, fun heven hx => (htwo (by simp [heven]) hx).1⟩
  · obtain ⟨hstatus, hpos, -⟩ := hone (by simp [hodd])
    exact ⟨hstatus, hpos⟩
  · obtain ⟨hstatus, -, hdata, -⟩ := hnone (by simp [heven]) hx
    obtain ⟨d', hd'⟩ := (even_zero_iff (flipAll (encWord d) E)).mp
      ⟨by rw [overallParity_flipAll_encWord d hE]; simp [heven], by rw [syndrome_flipAll_encWord d hE, hx]⟩
    rw [hdata, hd', extract_encWord]
    exact ⟨hstatus, payload_ne_of_flipAll_eq hnodup hE hne hd'⟩

/-- Settles O31: the word after the correction is the codeword with four distinct positions flipped. -/
theorem threeFlipsAreMiscorrected : Obligations.ThreeFlipsAreMiscorrected := by
  intro d p q r s hp hq hr hpq hpr hqr hx
  have hE : ∀ i ∈ [p, q, r], i < 13 := by simp [hp, hq, hr]
  have hodd : overallParity (flipAll (encWord d) [p, q, r]) = true := by
    rw [overallParity_flipAll_encWord d hE]
    simp
  have hsyn : syndrome 4 (flipAll (encWord d) [p, q, r]) = p ^^^ q ^^^ r := by
    rw [syndrome_flipAll_encWord d hE]
    simp
  have hnep : p ^^^ q ^^^ r ≠ p := xor_xor_ne_left hqr
  have hneq : p ^^^ q ^^^ r ≠ q := Nat.xor_comm p q ▸ xor_xor_ne_left hpr
  have hner : p ^^^ q ^^^ r ≠ r := by
    rw [Nat.xor_comm, ← Nat.xor_assoc]
    exact xor_xor_ne_left hpq
  have hreadable : ByteReadable (flipAll (encWord d) [p, q, r]) := .inr ⟨hodd, hsyn.trans_lt hx⟩
  have hports := decPorts_of_odd Config.oorPolicy hodd (hsyn.trans_lt hx)
  have hcode := cwFixed_eq_encWord_data hreadable hports
  refine ⟨_, _, exec_dec_of_ports s hports, rfl, (toNat_ofNat_syndrome _).trans hsyn, hnep, hneq, hner, ?_, hcode, rfl⟩
  refine payload_ne_of_flipAll_eq (E := [p, q, r, p ^^^ q ^^^ r]) ?_ ?_ (by simp) (hsyn ▸ hcode)
  · simp [hpq, hpr, hqr, hnep.symm, hneq.symm, hner.symm]
  · simp [hp, hq, hr, hx]

/-- Settles O32: a corrected word is the codeword of the payload that was returned, and a word of even parity is driven
again as it came. -/
theorem correctedWordDecodesClean : Obligations.CorrectedWordDecodesClean := by
  intro w s
  obtain ⟨o, ho, hrun⟩ := exec_dec w s
  obtain ⟨o', ho', hrun'⟩ := exec_dec o.cwFixed (s.withDec w o)
  refine ⟨_, _, hrun, hrun', fun hodd hs => ?_, fun heven => ?_⟩
  · rw [cwFixed_eq_encWord_data (.inr ⟨hodd, hs⟩) ho] at ho'
    cases ho'.symm.trans (decPorts_encWord _ _)
    exact ⟨rfl, rfl, (cwFixed_eq_encWord_data (.inr ⟨hodd, hs⟩) ho).symm⟩
  · have hfixed := cwFixed_of_even heven ho
    rw [hfixed] at ho'
    cases ho'.symm.trans ho
    exact ⟨hfixed, by rw [hfixed]; rfl⟩

/-- Settles O20: the row of even parity and syndrome 0, whose payload is extracted from the word as it came. -/
theorem noErrorReturnsThePayload : Obligations.NoErrorReturnsThePayload := fun pol M R _ w heven hs =>
  ⟨_, decodeAt_of_even_zero pol M R heven hs, fun _ hi => getLsbD_extract M w hi⟩

end Sys2Proof.Machine

/-!
The disk array: what a write stores and registers, what a corrupted disk shows, and what a read returns, repairs and
leaves alone (spec/42_array_environment.md rules R79 to R97).
-/

namespace Sys2Proof.Machine

/-! ### Storing bytes (rules R86, R87) -/

theorem storeByte_wf {s : State} (hwf : s.array.disks.wf = true) (b : Byte) :
    (storeByte s b).array.disks.wf = true ∧
      usedBytes (storeByte s b).array.disks = usedBytes s.array.disks + 1 := storeBytes_wf [b] s hwf

/-- A stored bit survives the storing of bytes, on any store at all. -/
theorem diskRead_storeBytes_of_some (data : List Byte) {s : State} {j o : Nat} {b : Bool}
    (h : diskRead s.array.disks j o = some b) : diskRead (storeBytes data s).array.disks j o = some b := by
  induction data generalizing s with
  | nil => exact h
  | cons c data ih => exact ih (storeByte_disks s c ▸ diskRead_appendCodeword_of_some _ h)

theorem diskRead_storeBytes_of_lt (data : List Byte) {s : State} (hwf : s.array.disks.wf = true) {o : Nat}
    (ho : o < usedBytes s.array.disks) (j : Nat) :
    diskRead (storeBytes data s).array.disks j o = diskRead s.array.disks j o := by
  induction data generalizing s with
  | nil => rfl
  | cons c data ih =>
    obtain ⟨hwf', hused⟩ := storeByte_wf hwf c
    rw [storeBytes_cons, ih hwf' (by omega), storeByte_disks, diskRead_appendCodeword hwf, if_neg (by omega)]

/-- The words at the new offsets are the codewords of the bytes. -/
theorem storesBytes_storeBytes (data : List Byte) {s : State} (hwf : s.array.disks.wf = true) :
    StoresBytes (storeBytes data s).array.disks (usedBytes s.array.disks) data := by
  induction data generalizing s with
  | nil => intro k b hb; cases hb
  | cons c data ih =>
    obtain ⟨hwf', hused⟩ := storeByte_wf hwf c
    intro k b hb
    cases k with
    | zero =>
      obtain rfl : c = b := Option.some.inj hb
      refine gather_eq_some_iff.mpr fun j hj => ?_
      rw [storeBytes_cons, diskRead_storeBytes_of_lt data hwf' (by omega), storeByte_disks,
        diskRead_appendCodeword hwf, if_pos ⟨rfl, hj⟩]
    | succ k =>
      rw [Nat.add_comm k, ← Nat.add_assoc, ← hused]
      exact ih hwf' k b hb

/-- Stores of the form that hold the same bytes from `o` to their end agree from `o` on. -/
theorem diskRead_eq_of_storesBytes {ds ds' : Memory} {o : Nat} {bytes : List Byte} (hwf : ds.wf = true)
    (hwf' : ds'.wf = true) (hused : usedBytes ds = o + bytes.length) (hused' : usedBytes ds' = o + bytes.length)
    (h : StoresBytes ds o bytes) (h' : StoresBytes ds' o bytes) (j : Nat) {k : Nat} (hk : o ≤ k) :
    diskRead ds j k = diskRead ds' j k := by
  by_cases hin : j < 13 ∧ k < o + bytes.length
  · obtain ⟨i, rfl⟩ := Nat.exists_eq_add_of_le hk
    have hi : bytes[i]? = some (bytes[i]'(by omega)) := List.getElem?_eq_getElem _
    rw [gather_eq_some_iff.mp (h i _ hi) j hin.1, gather_eq_some_iff.mp (h' i _ hi) j hin.1]
  · have habsent : (decide (j < 13) && decide (k < o + bytes.length)) = false := by simpa using hin
    have hnone := diskRead_isSome hwf j k
    have hnone' := diskRead_isSome hwf' j k
    rw [hused, habsent, Option.isSome_eq_false_iff, Option.isNone_iff_eq_none] at hnone
    rw [hused', habsent, Option.isSome_eq_false_iff, Option.isNone_iff_eq_none] at hnone'
    rw [hnone, hnone']

/-! ### `write_file` (rules R85, R88) -/

theorem nameTaken_iff (dir : List FileRecord) (name : String) :
    nameTaken dir name = true ↔ ∃ r ∈ dir, r.name = name := by simp [nameTaken]

theorem writeFileWith_of_no_room {data : List Byte} {s : State} (h : s.array.freeSpace ≤ data.length)
    (dup : DupNamePolicy) (kind : FileKind) (name : String) :
    writeFileWith dup data kind name s = .next (s.withReply .notEnoughSpace) := if_neg (not_lt.mpr h)

/-- With room, every write is carried out that is not the rejection of a taken name. -/
theorem writeFileWith_of_room {dup : DupNamePolicy} {data : List Byte} {name : String} {s : State}
    (hfree : data.length < s.array.freeSpace)
    (hdup : ¬ (dup = .rejectDuplicates ∧ nameTaken s.array.directory name = true)) (kind : FileKind) :
    writeFileWith dup data kind name s = .next ((fileStored data kind name s).withReply .written) :=
  (if_pos hfree).trans (if_neg hdup)

theorem writeFileWith_of_rejected {data : List Byte} {name : String} {s : State}
    (hfree : data.length < s.array.freeSpace) (htaken : nameTaken s.array.directory name = true) (kind : FileKind) :
    writeFileWith .rejectDuplicates data kind name s = .next (s.withReply .duplicateName) :=
  (if_pos hfree).trans (if_pos ⟨rfl, htaken⟩)

theorem runRequest_writeFile_of_no_room {data : List Byte} {s : State} (h : s.array.freeSpace ≤ data.length)
    (kind : FileKind) (name : String) :
    runRequest (.writeFile data kind name) s = .next (s.withReply .notEnoughSpace) :=
  writeFileWith_of_no_room h _ kind name

theorem runRequest_writeFile_of_room {data : List Byte} {s : State} (hfree : data.length < s.array.freeSpace)
    (kind : FileKind) (name : String) :
    runRequest (.writeFile data kind name) s = .next ((fileStored data kind name s).withReply .written) :=
  writeFileWith_of_room hfree (fun ⟨h, _⟩ => nomatch h) kind

/-! ### Looking a record up (rules R83, R88) -/

theorem lookup_eq_none_iff (dup : DupNamePolicy) (dir : List FileRecord) (name : String) :
    lookup dup dir name = none ↔ ∀ r ∈ dir, r.name ≠ name := by
  cases dup with
  | firstMatch | rejectDuplicates | lastShadows => simp [lookup]

theorem find?_name_append {before : List FileRecord} {r : FileRecord} (h : ∀ q ∈ before, q.name ≠ r.name)
    (after : List FileRecord) : (before ++ r :: after).find? (fun q => q.name == r.name) = some r := by
  rw [List.find?_append, List.find?_eq_none.mpr (by simpa using h), Option.none_or, List.find?_cons_of_pos (by simp)]

/-! ### `corrupt_disk` (rules R93, R95) -/

theorem diskComplement_diskComplement (ds : Memory) (j : Nat) : diskComplement (diskComplement ds j) j = ds := by
  refine List.ext_getElem? fun i => ?_
  rw [diskComplement, diskComplement, List.getElem?_modify, List.getElem?_modify]
  by_cases hi : j = i
  · cases ds[i]? <;> simp [hi, Function.comp_def]
  · simp [hi]

theorem runRequest_corruptDisk_of_inRange {n : Nat} (h1 : 1 ≤ n) (h13 : n ≤ 13) (s : State) :
    runRequest (.corruptDisk n) s =
      .next ((s.withDisks (diskComplement s.array.disks (n - 1))).withReply (.inRange true)) := if_pos ⟨h1, h13⟩

theorem runRequest_corruptDisk_of_outOfRange {n : Nat} (h : ¬ (1 ≤ n ∧ n ≤ 13)) (s : State) :
    runRequest (.corruptDisk n) s = .next (s.withReply (.inRange false)) := if_neg h

/-- A corrupted disk shows as one flip of every word. -/
theorem gather_diskComplement {ds : Memory} {o p : Nat} {w : Codeword} (h : gather ds o = some w) :
    gather (diskComplement ds p) o = some (flipBit w p) := by
  refine gather_eq_some_iff.mpr fun j hj => ?_
  rw [diskRead_diskComplement, gather_eq_some_iff.mp h j hj, getLsbD_flipBit_eq_ite w p hj]
  split <;> rfl

/-! ### What a read answers and repairs, on any store (rules R89 to R92) -/

/-- Where `ds'` differs from `ds`, at an offset from `lo` below `hi`, the word of `ds` there has odd parity and its
syndrome names the disk. -/
def RepairsWithin (ds ds' : Memory) (lo hi : Nat) : Prop :=
  ∀ j o, diskRead ds' j o ≠ diskRead ds j o →
    lo ≤ o ∧ o < hi ∧ ∃ w, gather ds o = some w ∧ overallParity w = true ∧ j = syndrome 4 w

theorem RepairsWithin.refl (ds : Memory) (lo hi : Nat) : RepairsWithin ds ds lo hi := fun _ _ h => absurd rfl h

/-- Repairs of a range and then of a range behind it: the second range still held the words of the first store. -/
theorem RepairsWithin.trans {ds ds' ds'' : Memory} {lo mid hi : Nat} (h : RepairsWithin ds ds' lo mid)
    (h' : RepairsWithin ds' ds'' mid hi) (hlo : lo ≤ mid) (hhi : mid ≤ hi) : RepairsWithin ds ds'' lo hi := by
  intro j o hne
  by_cases hsame : diskRead ds' j o = diskRead ds j o
  · obtain ⟨hmid, ho, w, hg, hodd, hj⟩ := h' j o (hsame ▸ hne)
    have hgather : gather ds' o = gather ds o := gather_congr fun i _ => by
      by_contra hdiff
      have := (h i o hdiff).2.1
      omega
    exact ⟨by omega, ho, w, hgather ▸ hg, hodd, hj⟩
  · obtain ⟨hlo', hmid, hword⟩ := h j o hsame
    exact ⟨hlo', by omega, hword⟩

/-- Status OneError stands on the row of odd parity, with the syndrome on `dec_pos`. -/
theorem decPorts_oneError {pol : OorPolicy} {w : Codeword} {p : DecOut 8 4 13} (hp : decPorts pol w = some p)
    (hc : classOfStatus p.status = some .oneError) : overallParity w = true ∧ p.pos.toNat = syndrome 4 w := by
  unfold decPorts at hp
  split at hp
  case h_2 => cases hp
  case h_1 r f hdec =>
    cases hp
    rcases decodeAt_cases hdec with ⟨-, -, rfl, -⟩ | ⟨hodd, -, rfl, -⟩ | ⟨hodd, -, -, rfl, -⟩ | ⟨-, -, rfl, -⟩
    · cases hc
    · exact ⟨hodd, toNat_ofNat_syndrome w⟩
    · exact ⟨hodd, toNat_ofNat_syndrome w⟩
    · cases hc

theorem readByte_healed_repairs {pol : OorPolicy} {o : Nat} {s t : State} {b : Byte}
    (h : readByte pol o s = .healed b t) : RepairsWithin s.array.disks t.array.disks o (o + 1) := by
  obtain ⟨w, p, ds, hg, hp, hc, hw, -, rfl⟩ := readByte_healed h
  obtain ⟨hodd, hpos⟩ := decPorts_oneError hp hc
  intro j k hne
  rw [State.withDisks_array_disks, diskRead_diskWrite hw] at hne
  by_cases hjk : j = p.pos.toNat ∧ k = o
  · obtain ⟨rfl, rfl⟩ := hjk
    exact ⟨le_rfl, by omega, w, hg, hodd, hpos⟩
  · exact absurd (if_neg hjk) hne

/-- A read of a range that is answered has repaired within it and returned `DisksCorrupted` or bytes. -/
theorem readBytes_eq_next {pol : OorPolicy} {kind : FileKind} {n o : Nat} {acc : List Byte} {s t : State}
    (h : readBytes pol kind n o acc s = .next t) :
    RepairsWithin s.array.disks t.array.disks o (o + n) ∧
      (t.reply = some .disksCorrupted ∨ ∃ bytes, t.reply = some (.contents kind bytes)) := by
  induction n generalizing o acc s with
  | zero =>
    cases h
    exact ⟨.refl _ _ _, .inr ⟨acc, rfl⟩⟩
  | succ n ih =>
    have hend : o + 1 + n = o + (n + 1) := by omega
    cases hr : readByte pol o s with
    | clean b u =>
      obtain ⟨w, p, -, -, -, -, rfl⟩ := readByte_clean hr
      obtain ⟨hrep, hreply⟩ := ih ((readBytes_of_clean hr kind n acc).symm.trans h)
      rw [hend] at hrep
      exact ⟨(RepairsWithin.refl s.array.disks o (o + 1)).trans hrep (by omega) (by omega), hreply⟩
    | healed b u =>
      obtain ⟨hrep, hreply⟩ := ih ((readBytes_of_healed hr kind n acc).symm.trans h)
      rw [hend] at hrep
      exact ⟨(readByte_healed_repairs hr).trans hrep (by omega) (by omega), hreply⟩
    | abort u =>
      obtain ⟨w, p, -, -, -, rfl⟩ := readByte_abort hr
      cases (readBytes_of_abort hr kind n acc).symm.trans h
      exact ⟨.refl _ _ _, .inl rfl⟩
    | stopped f => cases (readBytes_of_stopped hr kind n acc).symm.trans h

theorem runRequest_readFile_eq_next {name : String} {s t : State} (h : runRequest (.readFile name) s = .next t) :
    (lookup Config.dupNamePolicy s.array.directory name = none ∧ t = s.withReply .notFound) ∨
    ∃ r, lookup Config.dupNamePolicy s.array.directory name = some r ∧
      readBytes Config.oorPolicy r.kind (r.endPos - r.startPos) r.startPos [] s = .next t := by
  cases hlook : lookup Config.dupNamePolicy s.array.directory name with
  | none =>
    cases (runRequest_readFile_of_absent hlook).symm.trans h
    exact .inl ⟨rfl, rfl⟩
  | some r => exact .inr ⟨r, rfl, (runRequest_readFile_of_lookup hlook).symm.trans h⟩

/-- What a read never touches: the encoder's wires, the queue, the counters, the directory and the disks' lengths. -/
structure KeptByReads (s t : State) : Prop where
  encData : t.encData = s.encData
  encCw : t.encCw = s.encCw
  requests : t.requests = s.requests
  totalCapacity : t.array.totalCapacity = s.array.totalCapacity
  freeSpace : t.array.freeSpace = s.array.freeSpace
  directory : t.array.directory = s.array.directory
  lengths : t.array.disks.map List.length = s.array.disks.map List.length

theorem readBytes_keptByReads {pol : OorPolicy} {kind : FileKind} {n o : Nat} {acc : List Byte} {s t : State}
    (h : readBytes pol kind n o acc s = .next t) : KeptByReads s t :=
  readBytes_keeps (P := KeptByReads s) (fun _ _ _ _ hu => { hu with })
    (fun _ _ _ _ _ _ _ hw hu => { hu with lengths := (diskWrite_lengths hw).trans hu.lengths })
    (fun _ _ hu => { hu with }) n o acc s t le_rfl le_rfl h ⟨rfl, rfl, rfl, rfl, rfl, rfl, rfl⟩

theorem runRequest_readFile_keptByReads {name : String} {s t : State}
    (h : runRequest (.readFile name) s = .next t) : KeptByReads s t := by
  rcases runRequest_readFile_eq_next h with ⟨-, rfl⟩ | ⟨r, -, hread⟩
  · exact ⟨rfl, rfl, rfl, rfl, rfl, rfl, rfl⟩
  · exact readBytes_keptByReads hread

/-! ### Reads from the invariant -/

/-- A word of a repaired range was decoded and left as `dec_cw_fixed` gives it. -/
theorem RangeRepaired.fixed {s t : State} {o n k : Nat} {w : Codeword} (h : RangeRepaired s t o n) (hlo : o ≤ k)
    (hhi : k < o + n) (hg : gather s.array.disks k = some w) :
    ∃ p, decPorts Config.oorPolicy w = some p ∧ gather t.array.disks k = some p.cwFixed := by
  obtain ⟨v, p, hv, hp, hfixed⟩ := h.1 k hlo hhi
  cases hg.symm.trans hv
  exact ⟨p, hp, hfixed⟩

theorem BytesDecoded.byte {s : State} {o k : Nat} {bytes : List Byte} {w : Codeword} {p : DecOut 8 4 13}
    (h : BytesDecoded s o bytes) (hk : k < bytes.length) (hg : gather s.array.disks (o + k) = some w)
    (hp : decPorts Config.oorPolicy w = some p) : bytes[k]? = some (byteOfBits p.data) := by
  obtain ⟨v, q, hv, hq, hbyte⟩ := h k hk
  cases hg.symm.trans hv
  cases hp.symm.trans hq
  exact hbyte

/-- A read that aborts has found a record and met readable words only, which it repaired, up to a double error. -/
theorem runRequest_readFile_aborted {s t : State} {name : String} (hs : StateInv s)
    (h : runRequest (.readFile name) s = .next t) (hreply : t.reply = some .disksCorrupted) :
    ∃ r m w, lookup Config.dupNamePolicy s.array.directory name = some r ∧ r.startPos + m < r.endPos ∧
      gather s.array.disks (r.startPos + m) = some w ∧ overallParity w = false ∧ syndrome 4 w ≠ 0 ∧
      (∀ o, r.startPos ≤ o → o < r.startPos + m → ∃ v, gather s.array.disks o = some v ∧ ByteReadable v) ∧
      RangeRepaired s t r.startPos m := by
  rcases runRequest_readFile_eq_next h with ⟨-, rfl⟩ | ⟨r, hlook, hrun⟩
  · cases hreply
  obtain ⟨hsize, hused⟩ := hs.directory r (mem_of_lookup hlook).1
  obtain ⟨m, -, hread, hcase⟩ :=
    readBytes_cases r.kind (r.endPos - r.startPos) r.startPos [] s hs.lockStep (by omega)
  rcases hcase with ⟨-, u, bytes, hrun', hbytes, -⟩ | ⟨hlt, w, u, hg, heven, hne, hrun', -, hrep⟩ |
    ⟨-, w, -, -, -, hrun'⟩
  · cases hrun'.symm.trans hrun
    cases hbytes.symm.trans hreply
  · cases hrun'.symm.trans hrun
    exact ⟨r, m, w, hlook, by omega, hg, heven, hne, hread, hrep⟩
  · cases hrun'.symm.trans hrun

/-- A read of a range of readable words succeeds. -/
theorem readBytes_of_readable {kind : FileKind} {n o : Nat} {s : State} (hwf : s.array.disks.wf = true)
    (hused : o + n ≤ usedBytes s.array.disks)
    (hread : ∀ k < n, ∃ w, gather s.array.disks (o + k) = some w ∧ ByteReadable w) :
    ∃ t bytes, readBytes Config.oorPolicy kind n o [] s = .next t ∧ t.reply = some (.contents kind bytes) ∧
      bytes.length = n ∧ BytesDecoded s o bytes ∧ RangeRepaired s t o n := by
  obtain ⟨m, -, -, hcase⟩ := readBytes_cases kind n o [] s hwf hused
  rcases hcase with ⟨-, t, bytes, hrun, hreply, hrest⟩ | ⟨hlt, w, t, hg, heven, hne, -⟩ | ⟨hlt, w, hg, hodd, hbeyond, -⟩
  · exact ⟨t, bytes, hrun, hreply, hrest⟩
  · obtain ⟨v, hv, hreadable⟩ := hread m hlt
    cases hg.symm.trans hv
    exact absurd ⟨heven, hne⟩ hreadable.not_stopping.2
  · obtain ⟨v, hv, hreadable⟩ := hread m hlt
    cases hg.symm.trans hv
    exact absurd ⟨hodd, hbeyond⟩ hreadable.not_stopping.1

/-- A read over codewords with one position flipped in each returns their bytes and leaves the codewords (rule R91). -/
theorem readBytes_of_one_flip {kind : FileKind} {bytes : List Byte} {o p : Nat} {s : State} (hp : p < 13)
    (hwf : s.array.disks.wf = true) (hused : o + bytes.length ≤ usedBytes s.array.disks)
    (hflip : ∀ k b, bytes[k]? = some b →
      gather s.array.disks (o + k) = some (flipBit (encWord (bitsOfByte b)) p)) :
    ∃ t, readBytes Config.oorPolicy kind bytes.length o [] s = .next t ∧
      t.reply = some (.contents kind bytes) ∧ StoresBytes t.array.disks o bytes := by
  have hread : ∀ k < bytes.length, ∃ w, gather s.array.disks (o + k) = some w ∧ ByteReadable w := fun k hk =>
    ⟨_, hflip k _ (List.getElem?_eq_getElem hk), .inr ((odd_lt_iff _).mpr ⟨_, p, hp, rfl⟩)⟩
  obtain ⟨t, bs, hrun, hreply, hlen, hdec, hrep⟩ := readBytes_of_readable (kind := kind) hwf hused hread
  have hbytes : bs = bytes := by
    refine List.ext_getElem hlen fun k hk hk' => ?_
    have hbyte := hdec.byte hk (hflip k _ (List.getElem?_eq_getElem hk'))
      (decPorts_eq (familyDec_one_flip Config.oorPolicy (M := 8) _ hp))
    rw [List.getElem?_eq_getElem hk] at hbyte
    exact (Option.some.inj hbyte).trans (byteOfBits_bitsOfByte _)
  subst hbytes
  exact ⟨t, hrun, hreply, storesBytes_of_repaired hread hdec hrep⟩

/-! ### A written file (rules R86, R87) -/

/-- The record a write of `data` to the array of `s` adds to the directory. -/
def writtenRecord (s : State) (data : List Byte) (kind : FileKind) (name : String) : FileRecord where
  name := name
  startPos := usedBytes s.array.disks
  endPos := usedBytes s.array.disks + data.length
  size := data.length
  kind := kind

/-- After a write with room: the codewords of the file at the end of disks that are of the form, and its record at the
end of the directory. -/
theorem exists_written {s : State} {data : List Byte} (hs : StateInv s) (hfree : data.length < s.array.freeSpace)
    (kind : FileKind) (name : String) :
    ∃ t, runRequest (.writeFile data kind name) s = .next t ∧ StateInv t ∧
      t.array.directory = s.array.directory ++ [writtenRecord s data kind name] ∧
      usedBytes t.array.disks = usedBytes s.array.disks + data.length ∧
      StoresBytes t.array.disks (usedBytes s.array.disks) data := by
  have hwrite := runRequest_writeFile_of_room hfree kind name
  obtain ⟨-, hused⟩ := storeBytes_wf data s hs.lockStep
  refine ⟨_, hwrite, runRequest_keeps stateInv_keptByOps hwrite hs, ?_, hused, storesBytes_storeBytes data hs.lockStep⟩
  rw [State.withReply_array, fileStored_array]
  rfl

/-- A file written under a new name is read over the range it was written to, as long as the directory stays. -/
theorem runRequest_readFile_of_written {s u : State} {data : List Byte} {kind : FileKind} {name : String}
    (hnew : ∀ r ∈ s.array.directory, r.name ≠ name)
    (hdir : u.array.directory = s.array.directory ++ [writtenRecord s data kind name]) :
    runRequest (.readFile name) u =
      readBytes Config.oorPolicy kind data.length (usedBytes s.array.disks) [] u := by
  have hlook : lookup Config.dupNamePolicy u.array.directory name = some (writtenRecord s data kind name) := by
    rw [hdir]
    exact find?_name_append (r := writtenRecord s data kind name) hnew []
  rw [runRequest_readFile_of_lookup hlook, writtenRecord, Nat.add_sub_cancel_left]

theorem exists_corrupted {n : Nat} (h1 : 1 ≤ n) (h13 : n ≤ 13) {s : State} (hs : StateInv s) :
    ∃ t, runRequest (.corruptDisk n) s = .next t ∧ StateInv t ∧ t.array.directory = s.array.directory ∧
      t.array.disks = diskComplement s.array.disks (n - 1) := by
  have hcorrupt := runRequest_corruptDisk_of_inRange h1 h13 s
  exact ⟨_, hcorrupt, runRequest_keeps stateInv_keptByOps hcorrupt hs, rfl, rfl⟩

/-! ### The scenarios (rule R95) -/

/-- Settles O47: the new record is the only one of its name, and its range holds the codewords of the bytes. -/
theorem writtenFileReadsBack : Obligations.WrittenFileReadsBack := by
  intro s data kind name hs hfree hnew
  obtain ⟨t, hwrite, -, hdir, -, hstores⟩ := exists_written hs hfree kind name
  obtain ⟨u, hrun, hreply, harray⟩ := readBytes_of_storesBytes Config.oorPolicy kind [] hstores
  exact ⟨t, u, hwrite, (runRequest_readFile_of_written hnew hdir).trans hrun, hreply, harray⟩

/-- Settles O48: one corrupted disk is one flip of every word, which the read undoes; it leaves the codewords the write
had stored, and nothing is stored behind the file.  The second read is O50. -/
theorem oneCorruptedDiskHeals : Obligations.OneCorruptedDiskHeals := by
  intro s data kind name n hs hfree hnew h1 h13
  obtain ⟨t, hwrite, ht, hdir, hused, hstores⟩ := exists_written hs hfree kind name
  obtain ⟨u, hcorrupt, hu, hdir', hdisks⟩ := exists_corrupted h1 h13 ht
  have husedu : usedBytes u.array.disks = usedBytes s.array.disks + data.length := by
    rw [hdisks, (diskComplement_wf ht.lockStep (n - 1)).2, hused]
  obtain ⟨v, hrun, hreply, hrestored⟩ := readBytes_of_one_flip (kind := kind) (show n - 1 < 13 by omega) hu.lockStep
    husedu.ge (fun k b hb => hdisks ▸ gather_diskComplement (hstores k b hb))
  have hread := (runRequest_readFile_of_written hnew (hdir'.trans hdir)).trans hrun
  obtain ⟨hwfv, husedv⟩ := wf_of_same_lengths hu.lockStep (runRequest_readFile_keptByReads hread).lengths
  obtain ⟨x, hagain, hreply', harray⟩ := repairsPersist u v name kind data hu hread hreply
  exact ⟨t, u, v, x, hwrite, hcorrupt, hread, hreply,
    fun j o ho => diskRead_eq_of_storesBytes hwfv ht.lockStep (husedv.trans husedu) hused hrestored hstores j ho,
    hagain, hreply', harray⟩

/-- Settles O49: two corrupted disks are two flips of every word, so the first word read is a double error. -/
theorem twoCorruptedDisksAbortTheRead : Obligations.TwoCorruptedDisksAbortTheRead := by
  intro s data kind name m n hs hfree hnew hm hm13 hn hn13 hmn
  obtain ⟨t, hwrite, ht, hdir, -, hstores⟩ := exists_written hs hfree kind name
  obtain ⟨u, hcorrupt, hu, hdiru, hdisks⟩ := exists_corrupted hm hm13 ht
  obtain ⟨v, hcorrupt', -, hdirv, hdisks'⟩ := exists_corrupted hn hn13 hu
  have hread := runRequest_readFile_of_written hnew (hdirv.trans (hdiru.trans hdir))
  cases data with
  | nil => exact ⟨t, u, v, _, hwrite, hcorrupt, hcorrupt', hread, rfl, fun h => absurd rfl h, fun _ => rfl⟩
  | cons b bs =>
    have hg : gather v.array.disks (usedBytes s.array.disks) =
        some (flipBit (flipBit (encWord (bitsOfByte b)) (m - 1)) (n - 1)) := by
      rw [hdisks', hdisks]
      exact gather_diskComplement (gather_diskComplement (hstores 0 b rfl))
    obtain ⟨heven, hne⟩ := (even_ne_zero_iff _).mpr
      ⟨bitsOfByte b, m - 1, n - 1, by omega, by omega, by omega, rfl⟩
    obtain ⟨p, habort⟩ := readByte_of_double hg heven hne
    exact ⟨t, u, v, _, hwrite, hcorrupt, hcorrupt', hread.trans (readBytes_of_abort habort kind bs.length []), rfl,
      fun _ => rfl, fun h => nomatch h⟩

/-! ### The statements about single operations -/

/-- Settles O55: the words before the double error are the repaired range. -/
theorem abortedReadKeepsItsRepairs : Obligations.AbortedReadKeepsItsRepairs := by
  intro s t name hs h hreply
  obtain ⟨r, m, w, hlook, hlt, hg, heven, hne, hread, hrep⟩ := runRequest_readFile_aborted hs h hreply
  refine ⟨r, r.startPos + m, w, hlook, by omega, hlt, hg, heven, hne, fun o hlo hhi => ?_, hrep.2⟩
  obtain ⟨v, hv, hreadable⟩ := hread o hlo hhi
  obtain ⟨p, hp, hfixed⟩ := hrep.fixed hlo hhi hv
  exact ⟨v, p, hv, hreadable, hp, hfixed⟩

/-- Settles O56: the whole range was readable, decoded and repaired. -/
theorem successfulReadReturnsWhatItDecodes : Obligations.SuccessfulReadReturnsWhatItDecodes := by
  intro s t name kind bytes hs h hreply
  obtain ⟨r, hlook, hkind, hlen, hread, hdec, hrep⟩ := runRequest_readFile_success hs h hreply
  obtain ⟨hsize, -⟩ := hs.directory r (mem_of_lookup hlook).1
  refine ⟨r, hlook, hkind, by omega, fun k hk => ?_, fun j o ho => hrep.2 j o (by omega)⟩
  have hk' : k < bytes.length := by omega
  obtain ⟨w, hw, hreadable⟩ := hread k hk'
  obtain ⟨p, hp, hfixed⟩ := hrep.fixed (by omega) (by omega) hw
  exact ⟨w, p, hw, hreadable, hp, hdec.byte hk' hw hp, hfixed⟩

/-- Settles O40: the comparison decides, and a new array has `13 * n` bytes free. -/
theorem writeNeedsMoreSpaceThanBytes : Obligations.WriteNeedsMoreSpaceThanBytes := by
  intro data kind name s
  refine ⟨fun hfree => ⟨_, runRequest_writeFile_of_room hfree kind name, rfl⟩,
    fun hfull => runRequest_writeFile_of_no_room hfull kind name, fun n u hu => ?_⟩
  cases hu
  rw [Nat.mul_comm 13 n]
  constructor
  · rintro ⟨t, hrun, hreply⟩
    by_contra hfull
    cases (runRequest_writeFile_of_no_room (not_lt.mp hfull) kind name).symm.trans hrun
    cases hreply
  · exact fun hfree => ⟨_, runRequest_writeFile_of_room hfree kind name, rfl⟩

/-- Settles O41: the state of `fileStored`, whose disks are those of `storeBytes`. -/
theorem writeStripesAndRegisters : Obligations.WriteStripesAndRegisters := by
  intro data kind name s hwf hfree
  obtain ⟨hdecCw, hdecOut, -, hrequests, htotal, hfreeSpace, -⟩ := storeBytes_frame data s
  obtain ⟨hwf', hused⟩ := storeBytes_wf data s hwf
  refine ⟨_, runRequest_writeFile_of_room hfree kind name, hwf', hused,
    fun j o ho => diskRead_storeBytes_of_lt data hwf ho j,
    fun j k b hj hb => gather_eq_some_iff.mp (storesBytes_storeBytes data hwf k b hb) j hj, ?_, ?_, htotal, hdecCw,
    hdecOut, hrequests⟩
  · rw [State.withReply_array, fileStored_array]
  · rw [State.withReply_array, fileStored_array]
    exact Nat.sub_add_cancel hfree.le

/-- Settles O42: the lookup decides between `NotFound` and the loop over the range. -/
theorem readLooksUpByName : Obligations.ReadLooksUpByName := by
  refine fun name s => ⟨fun hnone => runRequest_readFile_of_absent ((lookup_eq_none_iff _ _ _).mpr hnone),
    fun r t hr hname h => ?_⟩
  rcases runRequest_readFile_eq_next h with ⟨hnone, -⟩ | ⟨r', -, hread⟩
  · exact absurd hname ((lookup_eq_none_iff _ _ _).mp hnone r hr)
  · rcases (readBytes_eq_next hread).2 with habort | ⟨bytes, hbytes⟩
    · exact .inl habort
    · exact .inr ⟨r'.kind, bytes, hbytes⟩

/-- Settles O43: the search from the front finds the earliest record of the name, and from the back the latest. -/
theorem lookupPolicies : Obligations.LookupPolicies := by
  refine fun before after r => ⟨fun h => find?_name_append h after, fun h => find?_name_append h after, fun h => ?_⟩
  have hreverse : (before ++ r :: after).reverse = after.reverse ++ r :: before.reverse := by simp
  rw [lookup, hreverse]
  exact find?_name_append (by simpa using h) _

/-- Settles O44: what every byte's read keeps, and that each repair is of the bit its word's syndrome names. -/
theorem readFrame : Obligations.ReadFrame := by
  intro name s t h
  have hkept := runRequest_readFile_keptByReads h
  refine ⟨hkept.encData, hkept.encCw, hkept.requests, hkept.totalCapacity, hkept.freeSpace, hkept.directory,
    hkept.lengths, ?_⟩
  rcases runRequest_readFile_eq_next h with ⟨-, rfl⟩ | ⟨r, hlook, hread⟩
  · exact ⟨fun _ _ _ => rfl, fun _ _ hne => absurd rfl hne⟩
  · obtain ⟨hrep, -⟩ := readBytes_eq_next hread
    refine ⟨fun j o hout => ?_, fun j o hne => (hrep j o hne).2.2⟩
    by_contra hne
    obtain ⟨hlo, hhi, -⟩ := hrep j o hne
    exact hout r hlook ⟨hlo, by omega⟩

/-- Settles O45: one update of one disk, which is its own inverse. -/
theorem corruptDisk : Obligations.CorruptDisk := by
  refine fun n s => ⟨fun h1 h13 => ?_, fun h => runRequest_corruptDisk_of_outOfRange h s⟩
  refine ⟨_, runRequest_corruptDisk_of_inRange h1 h13 s, rfl, fun o => ?_, fun j o hj => ?_, rfl, rfl, rfl, rfl, rfl,
    rfl, rfl, rfl, _, runRequest_corruptDisk_of_inRange h1 h13 _, ?_⟩
  · exact (diskRead_diskComplement _ _ _ o).trans (if_pos rfl)
  · exact (diskRead_diskComplement _ _ j o).trans (if_neg hj)
  · rw [State.withReply_array, State.withReply_array, State.withDisks_array_disks, diskComplement_diskComplement]
    rfl

/-! ### Steps that keep the stored bits (rule R84) -/

theorem exec_array {i : Instr} {s t : State} (h : exec i s = .next t) : t.array = s.array := by
  cases i with
  | enc d => cases (exec_enc d s).symm.trans h; rfl
  | dec w =>
    obtain ⟨o, -, hrun⟩ := exec_dec w s
    cases hrun.symm.trans h
    rfl

/-- Only a read, a corrupted disk and construction take a stored bit away or change it. -/
theorem diskRead_of_runRequest {r : Request} {s t : State} {j o : Nat} {b : Bool} (h : runRequest r s = .next t)
    (hb : diskRead s.array.disks j o = some b) (hread : ∀ name, r ≠ .readFile name)
    (hcorrupt : ∀ n, r ≠ .corruptDisk n) (hconstruct : ∀ n, r ≠ .construct n) :
    diskRead t.array.disks j o = some b := by
  cases r with
  | drive w =>
    obtain ⟨i, -, hi⟩ := runDrive_eq_next h
    rw [exec_array hi, hb]
  | flip w p =>
    obtain ⟨r, rfl⟩ := execFlip_eq_next h
    exact hb
  | encb c => rw [exec_array (i := .enc (bitsOfByte c)) h, hb]
  | decb w =>
    obtain ⟨u, r, hu, rfl⟩ := execDecb_eq_next h
    rw [State.withReply_array, exec_array hu, hb]
  | construct n => exact absurd rfl (hconstruct n)
  | writeFile data kind name =>
    rcases execWriteFile_eq_next h with ⟨r, rfl⟩ | ⟨-, r, rfl⟩
    · exact hb
    · rw [State.withReply_array, fileStored_array]
      exact diskRead_storeBytes_of_some data hb
  | readFile name => exact absurd rfl (hread name)
  | corruptDisk n => exact absurd rfl (hcorrupt n)

/-- Settles O46: by the request at the head of the queue; with none, or with another, the bit stays. -/
theorem storedBitsChangeOnlyByRepairOrInjection : Obligations.StoredBitsChangeOnlyByRepairOrInjection := by
  intro s t j o b h hb hne
  cases hq : s.requests with
  | nil =>
    cases (step_of_no_request hq).symm.trans h
    exact absurd hb hne
  | cons r rest =>
    rw [step_of_request hq] at h
    refine ⟨rest, ?_⟩
    by_contra hother
    simp only [List.cons.injEq, and_true, not_or, not_exists] at hother
    obtain ⟨hread, hcorrupt, hconstruct⟩ := hother
    exact hne (diskRead_of_runRequest h hb hread hcorrupt hconstruct)

/-! ### Construction, the start, and the policies of a write -/

/-- Settles O39: the new array has 13 empty disks, and construction replaces the array and the reply only. -/
theorem construction : Obligations.Construction := fun n _ =>
  ⟨_, rfl, List.length_replicate, fun _ hd => List.eq_of_mem_replicate hd, Nat.mul_comm n 13, Nat.mul_comm n 13, rfl,
    rfl, rfl, rfl, rfl, rfl⟩

/-- Settles O52: zero words on the inputs give zero words on the outputs, and the array is as constructed. -/
theorem resetSatisfiesTheInvariant : Obligations.ResetSatisfiesTheInvariant := by
  have hports : PortsFollow State.reset := ⟨by decide, by decide⟩
  have hlock : Memory.wf (List.replicate 13 []) = true := by decide
  exact ⟨⟨hports, hlock, ⟨rfl, Nat.mul_mod_left _ 13⟩, fun _ hr => absurd hr List.not_mem_nil⟩, rfl, rfl, rfl⟩

/-- Settles O57: the capacity check comes first, and only a rejected name stops a write behind it. -/
theorem writePolicies : Obligations.WritePolicies := by
  intro data kind name s
  refine ⟨fun hfull dup => writeFileWith_of_no_room hfull dup kind name,
    fun hfree htaken => writeFileWith_of_rejected hfree ((nameTaken_iff _ _).mpr htaken) kind, fun hfree hnew => ?_, ?_,
    fun hfree => ⟨_, writeFileWith_of_room hfree (by simp) kind, rfl⟩⟩
  · have hfresh : ¬ nameTaken s.array.directory name = true := fun h => by
      obtain ⟨r, hr, hname⟩ := (nameTaken_iff _ _).mp h
      exact hnew r hr hname
    rw [writeFileWith_of_room hfree (fun h => hfresh h.2), writeFileWith_of_room hfree (by simp)]
  · rcases Nat.lt_or_ge data.length s.array.freeSpace with hfree | hfull
    · rw [writeFileWith_of_room hfree (by simp), writeFileWith_of_room hfree (by simp)]
    · rw [writeFileWith_of_no_room hfull, writeFileWith_of_no_room hfull]

end Sys2Proof.Machine
